-- ==== Sys2Proof/Word.lean ====
section
/-! DEFINITION. The widths of the machine: bytes, 16-bit words, 12-bit immediates, register and key numbers
(00_scope.md R5, R9; 10_state.md R20, R33). -/

namespace Sys2Proof

/-- A byte of memory or the content of a V register, unsigned (00_scope.md R9). -/
abbrev Byte := BitVec 8

/-- The content of I, pc or a stack slot, and an instruction word (00_scope.md R5). -/
abbrev Word := BitVec 16

/-- The operand NNN (30_encoding.md R71). -/
abbrev Imm12 := BitVec 12

/-- A register number, used directly as the index of V; none is illegal (30_encoding.md R73). -/
abbrev Reg := Fin 16

/-- A logical key 0x0..0xF (10_state.md R33). -/
abbrev Key := Fin 16

/-- The number of sprite rows of DXYN, a count 0..15 (30_encoding.md R73). -/
abbrev Height := Fin 16

/-- VF is V[15], the register that doubles as flag (10_state.md R21). -/
abbrev regF : Reg := 15

end Sys2Proof
end

