-- ==== Sys2Proof/Syntax.lean ====
section
/-! DEFINITION. The 35 instructions of 30_encoding.md R75, one constructor per row of spec/opcode_table.json, in
the table's order. Fields an instruction ignores (R78) are kept, so that a word and its term determine each other. -/

namespace Sys2Proof

/-- One instruction with its operand fields (30_encoding.md R71, R74). `x` and `y` are register numbers. -/
inductive Instr where
  /-- 00E0 -/
  | cls
  /-- 00EE -/
  | ret
  /-- 0NNN, the operand ignored -/
  | sys (nnn : Imm12)
  /-- 1NNN -/
  | jp (nnn : Imm12)
  /-- 2NNN -/
  | call (nnn : Imm12)
  /-- 3XKK -/
  | seImm (x : Reg) (kk : Byte)
  /-- 4XKK -/
  | sneImm (x : Reg) (kk : Byte)
  /-- 5XY0 -/
  | seReg (x y : Reg)
  /-- 6XKK -/
  | ldImm (x : Reg) (kk : Byte)
  /-- 7XKK -/
  | addImm (x : Reg) (kk : Byte)
  /-- 8XY0 -/
  | ldReg (x y : Reg)
  /-- 8XY1 -/
  | orReg (x y : Reg)
  /-- 8XY2 -/
  | andReg (x y : Reg)
  /-- 8XY3 -/
  | xorReg (x y : Reg)
  /-- 8XY4 -/
  | addReg (x y : Reg)
  /-- 8XY5 -/
  | sub (x y : Reg)
  /-- 8XY6, Y ignored -/
  | shr (x y : Reg)
  /-- 8XY7 -/
  | subn (x y : Reg)
  /-- 8XYE, Y ignored -/
  | shl (x y : Reg)
  /-- 9XY0 -/
  | sneReg (x y : Reg)
  /-- ANNN -/
  | ldI (nnn : Imm12)
  /-- BNNN -/
  | jpV0 (nnn : Imm12)
  /-- CXKK -/
  | rnd (x : Reg) (kk : Byte)
  /-- DXYN -/
  | drw (x y : Reg) (n : Height)
  /-- EX9E -/
  | skp (x : Reg)
  /-- EXA1 -/
  | sknp (x : Reg)
  /-- FX07 -/
  | ldVxDt (x : Reg)
  /-- FX0A -/
  | ldVxK (x : Reg)
  /-- FX15 -/
  | ldDtVx (x : Reg)
  /-- FX18, the register's value unused -/
  | ldStVx (x : Reg)
  /-- FX1E -/
  | addI (x : Reg)
  /-- FX29, the register's value unused -/
  | ldF (x : Reg)
  /-- FX33 -/
  | ldB (x : Reg)
  /-- FX55 -/
  | stRegs (x : Reg)
  /-- FX65 -/
  | ldRegs (x : Reg)
deriving DecidableEq, Repr

end Sys2Proof
end

