-- ==== Sys2Proof/Decode.lean ====
section
/-! DEFINITION. The decoder of 30_encoding.md R74, the byte order of R70 (20_memory.md R53), and, after them, the encoder
and the opcode map of R75. -/

namespace Sys2Proof

/-! ### Fields of the instruction word (30_encoding.md R71) -/

/-- `F = op[15:12]`, the family. -/
def fieldF (op : Word) : BitVec 4 := op.extractLsb' 12 4

/-- `X = op[11:8]`. -/
def fieldX (op : Word) : Reg := ⟨(op.extractLsb' 8 4).toNat, (op.extractLsb' 8 4).isLt⟩

/-- `Y = op[7:4]`. -/
def fieldY (op : Word) : Reg := ⟨(op.extractLsb' 4 4).toNat, (op.extractLsb' 4 4).isLt⟩

/-- `N = op[3:0]`, as a sub-opcode. -/
def fieldN (op : Word) : BitVec 4 := op.extractLsb' 0 4

/-- `N = op[3:0]`, as the sprite height of DXYN. -/
def fieldHeight (op : Word) : Height := ⟨(op.extractLsb' 0 4).toNat, (op.extractLsb' 0 4).isLt⟩

/-- `KK = op[7:0]`. -/
def fieldKK (op : Word) : Byte := op.extractLsb' 0 8

/-- `NNN = op[11:0]`. -/
def fieldNNN (op : Word) : Imm12 := op.extractLsb' 0 12

/-! ### Decoding one word (30_encoding.md R74) -/

/-- Family 0: 00E0 and 00EE on all 16 bits first, every other word is 0NNN (R74, R77). -/
def decodeFamily0 (op : Word) : Instr :=
  if op = 0x00E0#16 then .cls else if op = 0x00EE#16 then .ret else .sys (fieldNNN op)

/-- Family 8, by the low nibble (R74). -/
def decodeFamily8 (op : Word) : Option Instr :=
  match fieldN op with
  | 0x0#4 => some (.ldReg (fieldX op) (fieldY op))
  | 0x1#4 => some (.orReg (fieldX op) (fieldY op))
  | 0x2#4 => some (.andReg (fieldX op) (fieldY op))
  | 0x3#4 => some (.xorReg (fieldX op) (fieldY op))
  | 0x4#4 => some (.addReg (fieldX op) (fieldY op))
  | 0x5#4 => some (.sub (fieldX op) (fieldY op))
  | 0x6#4 => some (.shr (fieldX op) (fieldY op))
  | 0x7#4 => some (.subn (fieldX op) (fieldY op))
  | 0xE#4 => some (.shl (fieldX op) (fieldY op))
  | _ => none

/-- Family E, by the low byte (R74). -/
def decodeFamilyE (op : Word) : Option Instr :=
  match fieldKK op with
  | 0x9E#8 => some (.skp (fieldX op))
  | 0xA1#8 => some (.sknp (fieldX op))
  | _ => none

/-- Family F, by the low byte (R74). -/
def decodeFamilyF (op : Word) : Option Instr :=
  match fieldKK op with
  | 0x07#8 => some (.ldVxDt (fieldX op))
  | 0x0A#8 => some (.ldVxK (fieldX op))
  | 0x15#8 => some (.ldDtVx (fieldX op))
  | 0x18#8 => some (.ldStVx (fieldX op))
  | 0x1E#8 => some (.addI (fieldX op))
  | 0x29#8 => some (.ldF (fieldX op))
  | 0x33#8 => some (.ldB (fieldX op))
  | 0x55#8 => some (.stRegs (fieldX op))
  | 0x65#8 => some (.ldRegs (fieldX op))
  | _ => none

/-- `decode(op)` of 30_encoding.md R74: the instruction, or `none` for an Unknown word (R76). 5XYn and 9XYn with n not 0 are
Unknown (90_conflicts.md C3; log 16). -/
def decodeWord (op : Word) : Option Instr :=
  match fieldF op with
  | 0x0#4 => some (decodeFamily0 op)
  | 0x1#4 => some (.jp (fieldNNN op))
  | 0x2#4 => some (.call (fieldNNN op))
  | 0x3#4 => some (.seImm (fieldX op) (fieldKK op))
  | 0x4#4 => some (.sneImm (fieldX op) (fieldKK op))
  | 0x5#4 => if fieldN op = 0x0#4 then some (.seReg (fieldX op) (fieldY op)) else none
  | 0x6#4 => some (.ldImm (fieldX op) (fieldKK op))
  | 0x7#4 => some (.addImm (fieldX op) (fieldKK op))
  | 0x8#4 => decodeFamily8 op
  | 0x9#4 => if fieldN op = 0x0#4 then some (.sneReg (fieldX op) (fieldY op)) else none
  | 0xA#4 => some (.ldI (fieldNNN op))
  | 0xB#4 => some (.jpV0 (fieldNNN op))
  | 0xC#4 => some (.rnd (fieldX op) (fieldKK op))
  | 0xD#4 => some (.drw (fieldX op) (fieldY op) (fieldHeight op))
  | 0xE#4 => decodeFamilyE op
  | 0xF#4 => decodeFamilyF op
  | _ => none

/-! ### Decoding bytes -/

/-- Why bytes are no instruction. -/
inductive Reject where
  /-- Fewer than the two bytes every instruction has (30_encoding.md R70). -/
  | truncated
  /-- An Unknown word (30_encoding.md R76). -/
  | unknownOpcode (op : Word)
deriving DecidableEq, Repr

/-- Two bytes, most significant first, as one word (30_encoding.md R70, 20_memory.md R53). -/
def wordOfBytes (hi lo : Byte) : Word := hi ++ lo

/-- `op[15:8]`, the byte at the lower address (20_memory.md R53). -/
def highByte (op : Word) : Byte := op.extractLsb' 8 8

/-- `op[7:0]`, the byte at the higher address (20_memory.md R53). -/
def lowByte (op : Word) : Byte := op.extractLsb' 0 8

/-- The instruction at the head of a list of bytes and the bytes after it, or why there is none. -/
def decode : List Byte → Except Reject (Instr × List Byte)
  | hi :: lo :: rest =>
    match decodeWord (wordOfBytes hi lo) with
    | some i => .ok (i, rest)
    | none => .error (.unknownOpcode (wordOfBytes hi lo))
  | _ => .error .truncated

/-! ### Encoding (30_encoding.md R71, R72, R75) -/

/-- The word whose four hexadecimal digits are `f`, `x`, `y`, `n`, most significant first (00_scope.md R8). -/
def hexWord (f x y n : Nat) : Word := BitVec.ofNat 16 (f * 4096 + x * 256 + y * 16 + n)

/-- Format NNN: family digit and twelve-bit operand (30_encoding.md R72). -/
def wordNNN (f : Nat) (nnn : Imm12) : Word := BitVec.ofNat 16 (f * 4096 + nnn.toNat)

/-- Format XKK: family digit, register, byte (30_encoding.md R72). -/
def wordXKK (f : Nat) (x : Reg) (kk : Byte) : Word := BitVec.ofNat 16 (f * 4096 + x.val * 256 + kk.toNat)

/-- The word of an instruction (30_encoding.md R75). -/
def encode : Instr → Word
  | .cls => 0x00E0#16
  | .ret => 0x00EE#16
  | .sys nnn => wordNNN 0x0 nnn
  | .jp nnn => wordNNN 0x1 nnn
  | .call nnn => wordNNN 0x2 nnn
  | .seImm x kk => wordXKK 0x3 x kk
  | .sneImm x kk => wordXKK 0x4 x kk
  | .seReg x y => hexWord 0x5 x.val y.val 0x0
  | .ldImm x kk => wordXKK 0x6 x kk
  | .addImm x kk => wordXKK 0x7 x kk
  | .ldReg x y => hexWord 0x8 x.val y.val 0x0
  | .orReg x y => hexWord 0x8 x.val y.val 0x1
  | .andReg x y => hexWord 0x8 x.val y.val 0x2
  | .xorReg x y => hexWord 0x8 x.val y.val 0x3
  | .addReg x y => hexWord 0x8 x.val y.val 0x4
  | .sub x y => hexWord 0x8 x.val y.val 0x5
  | .shr x y => hexWord 0x8 x.val y.val 0x6
  | .subn x y => hexWord 0x8 x.val y.val 0x7
  | .shl x y => hexWord 0x8 x.val y.val 0xE
  | .sneReg x y => hexWord 0x9 x.val y.val 0x0
  | .ldI nnn => wordNNN 0xA nnn
  | .jpV0 nnn => wordNNN 0xB nnn
  | .rnd x kk => wordXKK 0xC x kk
  | .drw x y n => hexWord 0xD x.val y.val n.val
  | .skp x => hexWord 0xE x.val 0x9 0xE
  | .sknp x => hexWord 0xE x.val 0xA 0x1
  | .ldVxDt x => hexWord 0xF x.val 0x0 0x7
  | .ldVxK x => hexWord 0xF x.val 0x0 0xA
  | .ldDtVx x => hexWord 0xF x.val 0x1 0x5
  | .ldStVx x => hexWord 0xF x.val 0x1 0x8
  | .addI x => hexWord 0xF x.val 0x1 0xE
  | .ldF x => hexWord 0xF x.val 0x2 0x9
  | .ldB x => hexWord 0xF x.val 0x3 0x3
  | .stRegs x => hexWord 0xF x.val 0x5 0x5
  | .ldRegs x => hexWord 0xF x.val 0x6 0x5

/-- The two bytes of an instruction as they stand in memory (30_encoding.md R70). -/
def encodeBytes (i : Instr) : List Byte := [highByte (encode i), lowByte (encode i)]

/-! ### The opcode map (30_encoding.md R75) -/

/-- Mask and match of the instruction's row: a word is this instruction when `op &&& mask = match` (and, for 0NNN, the word
is neither 0x00E0 nor 0x00EE). -/
def opcodeRow : Instr → Word × Word
  | .cls => (0xFFFF#16, 0x00E0#16)
  | .ret => (0xFFFF#16, 0x00EE#16)
  | .sys _ => (0xF000#16, 0x0000#16)
  | .jp _ => (0xF000#16, 0x1000#16)
  | .call _ => (0xF000#16, 0x2000#16)
  | .seImm _ _ => (0xF000#16, 0x3000#16)
  | .sneImm _ _ => (0xF000#16, 0x4000#16)
  | .seReg _ _ => (0xF00F#16, 0x5000#16)
  | .ldImm _ _ => (0xF000#16, 0x6000#16)
  | .addImm _ _ => (0xF000#16, 0x7000#16)
  | .ldReg _ _ => (0xF00F#16, 0x8000#16)
  | .orReg _ _ => (0xF00F#16, 0x8001#16)
  | .andReg _ _ => (0xF00F#16, 0x8002#16)
  | .xorReg _ _ => (0xF00F#16, 0x8003#16)
  | .addReg _ _ => (0xF00F#16, 0x8004#16)
  | .sub _ _ => (0xF00F#16, 0x8005#16)
  | .shr _ _ => (0xF00F#16, 0x8006#16)
  | .subn _ _ => (0xF00F#16, 0x8007#16)
  | .shl _ _ => (0xF00F#16, 0x800E#16)
  | .sneReg _ _ => (0xF00F#16, 0x9000#16)
  | .ldI _ => (0xF000#16, 0xA000#16)
  | .jpV0 _ => (0xF000#16, 0xB000#16)
  | .rnd _ _ => (0xF000#16, 0xC000#16)
  | .drw _ _ _ => (0xF000#16, 0xD000#16)
  | .skp _ => (0xF0FF#16, 0xE09E#16)
  | .sknp _ => (0xF0FF#16, 0xE0A1#16)
  | .ldVxDt _ => (0xF0FF#16, 0xF007#16)
  | .ldVxK _ => (0xF0FF#16, 0xF00A#16)
  | .ldDtVx _ => (0xF0FF#16, 0xF015#16)
  | .ldStVx _ => (0xF0FF#16, 0xF018#16)
  | .addI _ => (0xF0FF#16, 0xF01E#16)
  | .ldF _ => (0xF0FF#16, 0xF029#16)
  | .ldB _ => (0xF0FF#16, 0xF033#16)
  | .stRegs _ => (0xF0FF#16, 0xF055#16)
  | .ldRegs _ => (0xF0FF#16, 0xF065#16)

/-! ### Words of the opcode table -/

/-- The word an opcode-table row's bits stand for: bit 0 of `w` is the word's least significant bit, bits from `nbits` up are
0. -/
def tableWord (nbits w : Nat) : Word := BitVec.ofNat 16 (w % 2 ^ nbits)

/-- The instruction the decoder reads from a table word laid out big-endian in memory. -/
def decodeTableWord (nbits w : Nat) : Option Instr :=
  match decode [highByte (tableWord nbits w), lowByte (tableWord nbits w)] with
  | .ok (i, _) => some i
  | .error _ => none

end Sys2Proof
end

