-- ==== Sys2Proof/Config.lean ====
section
/-! DEFINITION. What is fixed for the machine (00_scope.md R5), and the free values: the inputs of a Step that
nothing inside the core determines (10_state.md R33, R34; log 3, 4, 5). -/

namespace Sys2Proof

/-- `MEM_SIZE` (00_scope.md R5). -/
abbrev Config.memSize : Nat := 4096

/-- `ROM_BASE` (00_scope.md R5). -/
abbrev Config.romBase : Nat := 0x200

/-- `ROM_MAX` (00_scope.md R5). -/
abbrev Config.romMax : Nat := 3584

/-- `PC_RESET` (00_scope.md R5). -/
abbrev Config.pcReset : Word := 0x0200#16

/-- `STACK_DEPTH` (00_scope.md R5). -/
abbrev Config.stackDepth : Nat := 16

/-- `FB_WIDTH` (00_scope.md R5). -/
abbrev Config.fbWidth : Nat := 64

/-- `FB_HEIGHT` (00_scope.md R5). -/
abbrev Config.fbHeight : Nat := 32

/-- FREE VALUE: the level of the sixteen keys at the n-th Step (10_state.md R33, 93_implementation_defined.md U3;
log 3). -/
opaque Config.freeKeyHeld : Nat → BitVec 16

/-- FREE VALUE: the random byte presented to the n-th Step (10_state.md R33, 93_implementation_defined.md U1;
log 3). -/
opaque Config.freeRnd : Nat → Byte

/-- FREE VALUE: how many Tick60 events came between the Step before and the n-th Step (60_exceptions.md R185,
93_implementation_defined.md U18; log 5). -/
opaque Config.freeTicks : Nat → Nat

/-- FREE VALUE: the key that `FX0A_PICK` prefers at the n-th Step; it counts only when it is held
(46_keys_timers.md R162, 93_implementation_defined.md U2; log 4). -/
opaque Config.freePick : Nat → Key

end Sys2Proof
end

