-- ==== Sys2Proof/Machine/State.lean ====
section
/-! DEFINITION. The state of the core (10_state.md R20 to R30, R35), plain data, and its value after Reset of the empty
image (10_state.md R37, 70_reset_and_hazards.md R200). -/

namespace Sys2Proof.Machine

/-- Memory as (address, byte) pairs in canonical form (`Memory.wf`): an address that is not listed holds 0x00, the
reset content of every byte outside the image (20_memory.md R58; log 7). -/
abbrev Memory := List Host.Cell

/-- `FB[r][c]`, rows outside, columns inside (10_state.md R26). -/
abbrev FrameBuffer := Vector (Vector Bool 64) 32

/-- The eight result kinds of a Step (60_exceptions.md R170). -/
inductive Result where
  /-- 0: an instruction executed, FX0A holding included. -/
  | ok
  /-- 1: the word decodes to no instruction; executed as a no-operation. -/
  | unknownOpcode
  /-- 2: a memory access above 0xFFF. -/
  | outOfBounds
  /-- 3: a DXYN footprint not wholly inside the grid. -/
  | drawOutOfBounds
  /-- 4: 2NNN with sp = 16. -/
  | stackOverflow
  /-- 5: 00EE with sp = 0. -/
  | stackUnderflow
  /-- 6: EX9E or EXA1 with V[X] > 15. -/
  | keyIndexOutOfRange
  /-- 7: the image given to Reset was longer than 3584 bytes. -/
  | loadError
deriving DecidableEq, Repr

/-- What a Step `raise`s (00_scope.md R11, 40_cycle.md R96), with what its `info` is made of. The spec gives every raise
its whole effect, so `raiseFault` turns it into the NEXT state the spec describes; neither `exec` nor `step` ever answers
`.fault` (log 1: safe). -/
inductive Fault where
  /-- Raised by fetch, DRW, LD_B, ST_REGS, LD_REGS: a memory access above 0xFFF, with the lowest such address
  (60_exceptions.md R171). Safe: taken as the spec describes. -/
  | outOfBounds (addr : Word)
  /-- Raised by DRW: the footprint leaves the grid, with the two coordinates (60_exceptions.md R172). Safe: taken as the spec
  describes. -/
  | drawOutOfBounds (x y : Byte)
  /-- Raised by CALL at depth 16 (60_exceptions.md R173). Safe: taken as the spec describes. -/
  | stackOverflow
  /-- Raised by RET at depth 0 (60_exceptions.md R174). Safe: taken as the spec describes. -/
  | stackUnderflow
  /-- Raised by SKP and SKNP with a key number above 15 (60_exceptions.md R175). Safe: taken as the spec describes. -/
  | keyIndexOutOfRange (k : Byte)
deriving DecidableEq, Repr

/-- Why an instruction would have no meaning; no arm of `exec` answers one. -/
inductive Refusal where
  /-- An instruction whose meaning is not written yet, by its mnemonic. Safe: the run ends. Raised by no arm. -/
  | notModelled (mnemonic : String)
deriving DecidableEq, Repr

/-- What the platform presents to one Step (10_state.md R33, R34): the Tick60 events since the Step before, the key
levels, the random byte, and the key `FX0A_PICK` would report when it is held (46_keys_timers.md R162; log 3, 4, 5). -/
structure StepInput where
  ticks : Nat
  keyHeld : BitVec 16
  rnd : Byte
  pick : Key
deriving DecidableEq, Repr

/-- The whole machine. -/
structure State where
  /-- V[0..15], V[15] = VF (10_state.md R20, R21). -/
  v : Vector Byte 16
  /-- The index register I (10_state.md R22). -/
  i : Word
  /-- The program counter (10_state.md R23). -/
  pc : Word
  /-- Stack[0..15], storage of its own outside Memory (10_state.md R24). -/
  stack : Vector Word 16
  /-- The number of stack slots in use, 0..16 (10_state.md R24). -/
  sp : Fin 17
  /-- The delay timer DT (10_state.md R25). -/
  dt : Byte
  /-- The frame buffer (10_state.md R26). -/
  fb : FrameBuffer
  /-- The display-changed flag (10_state.md R27). -/
  displayChanged : Bool
  /-- Memory (10_state.md R28). -/
  mem : Memory
  /-- The load-error latch (10_state.md R29). -/
  loadError : Bool
  /-- The output `result`: the kind the last Step ended with (10_state.md R35; log 2). -/
  result : Result
  /-- The output `info` (10_state.md R35; log 2). -/
  info : Word
  /-- The MODEL's own: inputs of the coming Steps, first first (log 3). -/
  inputs : List StepInput
  /-- The MODEL's own: the number of the coming Step, the argument of the free inputs when `inputs` is empty (log 3). -/
  stepNo : Nat
deriving DecidableEq, Repr

/-- A frame buffer with every pixel clear. -/
def blankFrameBuffer : FrameBuffer := Vector.replicate 32 (Vector.replicate 64 false)

/-- The machine after Reset of the empty image (10_state.md R37; `inputs` and `stepNo` are DESIGN CHOICE, log 3). -/
def State.reset : State where
  v := Vector.replicate 16 0#8
  i := 0#16
  pc := Config.pcReset
  stack := Vector.replicate 16 0#16
  sp := 0
  dt := 0#8
  fb := blankFrameBuffer
  displayChanged := false
  mem := []
  loadError := false
  result := .ok
  info := 0#16
  inputs := []
  stepNo := 0

end Sys2Proof.Machine
end

