-- ==== Sys2Proof/Machine/Ops.lean ====
section
/-! DEFINITION. The named operations of the machine over registers, pc, stack, memory and frame buffer, the Step's inputs,
and the one operation that reports a Step's result, raising an error included (00_scope.md R11, 40_cycle.md R96). -/

namespace Sys2Proof.Machine

/-! ### Reporting: the outputs `result` and `info` (10_state.md R35, 60_exceptions.md R170) -/

/-- `result[2:0]` (60_exceptions.md R170). -/
def Result.code : Result → BitVec 3
  | .ok => 0#3
  | .unknownOpcode => 1#3
  | .outOfBounds => 2#3
  | .drawOutOfBounds => 3#3
  | .stackOverflow => 4#3
  | .stackUnderflow => 5#3
  | .keyIndexOutOfRange => 6#3
  | .loadError => 7#3

/-- A fatal kind leaves the instruction unexecuted: all but OK and UnknownOpcode (60_exceptions.md R170). -/
def Result.fatal : Result → Bool
  | .ok => false
  | .unknownOpcode => false
  | .outOfBounds => true
  | .drawOutOfBounds => true
  | .stackOverflow => true
  | .stackUnderflow => true
  | .keyIndexOutOfRange => true
  | .loadError => true

/-- The kind a raise reports (60_exceptions.md R170). -/
def Fault.kind : Fault → Result
  | .outOfBounds _ => .outOfBounds
  | .drawOutOfBounds _ _ => .drawOutOfBounds
  | .stackOverflow => .stackOverflow
  | .stackUnderflow => .stackUnderflow
  | .keyIndexOutOfRange _ => .keyIndexOutOfRange

/-- The `info` a raise reports (60_exceptions.md R170): `(V[X] << 8) | V[Y]` for a draw, `zext_16(V[X])` for a key number. -/
def Fault.info : Fault → Word
  | .outOfBounds addr => addr
  | .drawOutOfBounds x y => x ++ y
  | .stackOverflow => 0#16
  | .stackUnderflow => 0#16
  | .keyIndexOutOfRange k => k.setWidth 16

/-- A Step ends with kind `r` and value `info` (40_cycle.md R97). -/
def report (r : Result) (info : Word) (s : State) : Host.Outcome State Fault Refusal :=
  .next { s with result := r, info := info }

/-- A Step ends OK (40_cycle.md R90). -/
def complete (s : State) : Host.Outcome State Fault Refusal := report .ok 0#16 s

/-- Taking an error (`raise E(info)`): no state element changes except `display_changed`, which is 0; the kind and its value
go to the outputs; pc stays on the instruction (40_cycle.md R96, 60_exceptions.md R180). There is no handler and no return
from one (60_exceptions.md R181). -/
def raiseFault (f : Fault) (s : State) : Host.Outcome State Fault Refusal :=
  report f.kind f.info { s with displayChanged := false }

/-! ### Registers -/

/-- `V[x]` (00_scope.md R11). -/
def readV (s : State) (x : Reg) : Byte := s.v[x.val]

/-- `V[x] <- b`. -/
def writeV (x : Reg) (b : Byte) (s : State) : State := { s with v := s.v.set x.val b }

/-- `I <- w`. -/
def writeI (w : Word) (s : State) : State := { s with i := w }

/-- `DT <- b`. -/
def writeDt (b : Byte) (s : State) : State := { s with dt := b }

/-! ### The program counter (40_cycle.md R95); sums are modulo 65536 (10_state.md R23) -/

/-- `pc <- w`. -/
def writePc (w : Word) (s : State) : State := { s with pc := w }

/-- Way "next": `pc <- (pc + 2) mod 65536`. -/
def advance (s : State) : State := writePc (s.pc + 2#16) s

/-- Ways "skip" and "next": 4 when the condition is true, else 2 (42_skips.md R114). -/
def skipIf (c : Bool) (s : State) : State := writePc (if c then s.pc + 4#16 else s.pc + 2#16) s

/-! ### The stack (10_state.md R24) -/

/-- `Stack[sp] <- w; sp <- sp + 1`, or nothing to push into when sp = 16. -/
def pushStack (w : Word) (s : State) : Option State :=
  if h : s.sp.val < 16 then
    some { s with stack := s.stack.set s.sp.val w, sp := ⟨s.sp.val + 1, by omega⟩ }
  else none

/-- `sp <- sp - 1` and the slot `Stack[sp]`, which keeps its value; nothing to pop when sp = 0. -/
def popStack (s : State) : Option (Word × State) :=
  if h : 0 < s.sp.val then
    some (s.stack[s.sp.val - 1]'(by omega), { s with sp := ⟨s.sp.val - 1, by omega⟩ })
  else none

/-! ### Memory (20_memory.md R51, R52) -/

/-- The canonical form: addresses strictly rising and in 0..4095, and no entry equal to what an unlisted address reads
as. -/
abbrev Memory.wf (m : Memory) : Prop :=
  m.Pairwise (fun c d => c.1 < d.1) ∧ ∀ c ∈ m, c.2 ≠ 0#8 ∧ c.1 < Config.memSize

/-- What an unlisted address reads as (20_memory.md R58; log 7). -/
def unlistedByte : Byte := 0#8

/-- `Mem[a]` for an address the caller has checked. -/
def memByte : Memory → Nat → Byte
  | [], _ => unlistedByte
  | (k, b) :: rest, a => if k = a then b else memByte rest a

/-- One entry in front, or none when the byte is what an unlisted address reads as. -/
def consCell (a : Nat) (b : Byte) (m : Memory) : Memory := if b = unlistedByte then m else (a, b) :: m

/-- The list after `Mem[a] <- b`, still rising. -/
def insertCell : Memory → Nat → Byte → Memory
  | [], a, b => consCell a b []
  | (k, c) :: rest, a, b =>
    if a < k then consCell a b ((k, c) :: rest)
    else if a = k then consCell a b rest
    else (k, c) :: insertCell rest a b

/-- `Mem[a] <- b` for an address the caller has checked; an address that does not exist holds nothing. -/
def memSet (m : Memory) (a : Nat) (b : Byte) : Memory :=
  if a < Config.memSize then insertCell m a b else m

/-- `MemRead(addr, 1)` (20_memory.md R52). The address is not wrapped before the check. -/
def memRead (m : Memory) (addr : Nat) : Except Fault Byte :=
  if addr < Config.memSize then .ok (memByte m addr) else .error (.outOfBounds (BitVec.ofNat 16 addr))

/-- Bytes stored at ascending addresses from `a` (20_memory.md R54). -/
def storeBytes (m : Memory) (a : Nat) : List Byte → Memory
  | [] => m
  | b :: rest => storeBytes (memSet m a b) (a + 1) rest

/-- The memory that holds the given bytes from `a` up and nothing else (20_memory.md R60). -/
def cellsFrom (a : Nat) : List Byte → Memory
  | [] => []
  | b :: rest => consCell a b (cellsFrom (a + 1) rest)

/-! ### The frame buffer (10_state.md R26) -/

/-- `FB[r][c]`; false outside the grid, which no access reaches (45_display.md R152). -/
def fbPixel (fb : FrameBuffer) (r c : Nat) : Bool :=
  if h : r < 32 ∧ c < 64 then (fb[r]'h.1)[c]'h.2 else false

/-- `FB[r][c] <- FB[r][c] ^ 1`. -/
def fbToggle (fb : FrameBuffer) (r c : Nat) : FrameBuffer :=
  if h : r < 32 ∧ c < 64 then fb.set r ((fb[r]'h.1).set c (!(fb[r]'h.1)[c]'h.2) h.2) h.1 else fb

/-- The display read port (10_state.md R35). -/
def pixel (s : State) (r c : Nat) : Bool := fbPixel s.fb r c

/-- `FB <- fb; display_changed <- 1`: every write of the frame buffer sets the flag (45_display.md R150, R151). -/
def showFrame (fb : FrameBuffer) (s : State) : State := { s with fb := fb, displayChanged := true }

/-! ### Inputs of a Step (10_state.md R33, R34; log 3) -/

/-- The inputs of the Step under way: the head of `inputs`, or free values when none are given. -/
def stepInput (s : State) : StepInput :=
  match s.inputs with
  | input :: _ => input
  | [] =>
    { ticks := Config.freeTicks s.stepNo
      keyHeld := Config.freeKeyHeld s.stepNo
      rnd := Config.freeRnd s.stepNo
      pick := Config.freePick s.stepNo }

/-- The next Step has inputs of its own: neither is remembered (10_state.md R33). -/
def consumeInput (s : State) : State := { s with inputs := s.inputs.tail, stepNo := s.stepNo + 1 }

/-- `key_held[k]` (10_state.md R33). -/
def keyHeld (s : State) (k : Nat) : Bool := (stepInput s).keyHeld.getLsbD k

end Sys2Proof.Machine
end

