-- ==== Sys2Proof/Machine/Flags.lean ====
section
/-! DEFINITION. The values written to VF as a flag (10_state.md R21) and the order of the two writes of a flag-writing
instruction (00_scope.md R12; log 10). -/

namespace Sys2Proof.Machine

/-- A condition as the byte 1 or 0. -/
def flagByte (c : Bool) : Byte := if c then 1#8 else 0#8

/-- Carry out of an addition: 1 if the sum exceeds 255 (43_alu.md R126). -/
def carryFlag (a b : Byte) : Byte := flagByte (decide (a.toNat + b.toNat > 255))

/-- Not-borrow of a - b: 0 if a < b, else 1, unsigned (43_alu.md R127). -/
def notBorrowFlag (a b : Byte) : Byte := flagByte (!decide (a.toNat < b.toNat))

/-- The bit a right shift moves out (43_alu.md R128). -/
def shiftedOutRight (a : Byte) : Byte := a &&& 1#8

/-- The bit a left shift moves out (43_alu.md R130). -/
def shiftedOutLeft (a : Byte) : Byte := (a &&& 0x80#8) >>> 7

/-- `V[15] <- flag` first, then `V[x] <- result`, where the result is read from the state the flag write left (00_scope.md
R12, 43_alu.md R133; log 10). -/
def flagThenResult (x : Reg) (flag : Byte) (result : State → Byte) (s : State) : State :=
  writeV x (result (writeV regF flag s)) (writeV regF flag s)

end Sys2Proof.Machine
end

