-- ==== Sys2Proof/Machine/Operands.lean ====
section
/-! DEFINITION. Operand forms: immediates (30_encoding.md R73), the range I + k of the memory instructions
(44_index_memory.md R146), the sprite footprint (45_display.md R152), decimal digits (44_index_memory.md R143) and keys
(46_keys_timers.md R160 to R162). -/

namespace Sys2Proof.Machine

/-- `zext_16(NNN)` (30_encoding.md R73). -/
def immWord (nnn : Imm12) : Word := nnn.setWidth 16

/-- `zext_16(V[x])`. -/
def byteWord (b : Byte) : Word := b.setWidth 16

/-- The check of a range of `len` bytes from `base`, made before the first access: `info` is the lowest address of the range
above 4095, `max(base, 4096)`; an empty range cannot fail (20_memory.md R52). -/
def rangeFault (base len : Nat) : Option Fault :=
  if 0 < len ∧ base + len - 1 > 4095 then some (.outOfBounds (BitVec.ofNat 16 (max base 4096))) else none

/-- The bytes at `base`, `base + 1`, ... of a checked range. -/
def readBytes (m : Memory) (base : Nat) : Nat → List Byte
  | 0 => []
  | n + 1 => memByte m base :: readBytes m (base + 1) n

/-- V0..VX as bytes, V0 first (44_index_memory.md R144). -/
def regBytes (v : Vector Byte 16) (x : Reg) : List Byte := v.toList.take (x.val + 1)

/-- `V[k] <- Mem[base + k]` for k = 0 .. n - 1, ascending (44_index_memory.md R145). -/
def loadRegs (m : Memory) (base : Nat) : Nat → Vector Byte 16 → Vector Byte 16
  | 0, v => v
  | n + 1, v => (loadRegs m base n v).setIfInBounds n (memByte m (base + n))

/-- Hundreds, tens, ones (44_index_memory.md R143; the order is log 12). -/
def decimalDigits (b : Byte) : List Byte :=
  [BitVec.ofNat 8 (b.toNat / 100), BitVec.ofNat 8 (b.toNat / 10 % 10), BitVec.ofNat 8 (b.toNat % 10)]

/-- The footprint test of a draw at column `x`, row `y` with `n` rows: with n > 0 it must lie wholly inside the grid; no
coordinate is reduced (45_display.md R152; log 11). -/
def footprintFault (x y : Byte) (n : Nat) : Option Fault :=
  if 0 < n ∧ (x.toNat + 7 > 63 ∨ y.toNat + n - 1 > 31) then some (.drawOutOfBounds x y) else none

/-- A register used as a key number must be 0..15 (46_keys_timers.md R160). -/
def keyFault (k : Byte) : Option Fault :=
  if k.toNat > 15 then some (.keyIndexOutOfRange k) else none

/-- The lowest k from `k` up with `keys[k] = 1`, looking at `fuel` keys; 0 when there is none. -/
def lowestHeld (keys : BitVec 16) : Nat → Nat → Nat
  | 0, _ => 0
  | fuel + 1, k => if keys.getLsbD k then k else lowestHeld keys fuel (k + 1)

/-- `FX0A_PICK(key_held)`: the preferred key when it is held, else the lowest held key, which is the default
(46_keys_timers.md R162; log 4). -/
def pickKey (input : StepInput) : Byte :=
  if input.keyHeld.getLsbD input.pick.val then BitVec.ofNat 8 input.pick.val
  else BitVec.ofNat 8 (lowestHeld input.keyHeld 16 0)

end Sys2Proof.Machine
end

