-- ==== Sys2Proof/Machine/Alu.lean ====
section
/-! DEFINITION. Register load, arithmetic, logic, shift and random (43_alu.md). All arithmetic is unsigned modulo 256
(R132). -/

namespace Sys2Proof.Machine

/-- 6XKK (43_alu.md R120). -/
def execLdImm (x : Reg) (kk : Byte) (s : State) : Host.Outcome State Fault Refusal :=
  complete (advance (writeV x kk s))

/-- 7XKK (43_alu.md R121): the carry is discarded. -/
def execAddImm (x : Reg) (kk : Byte) (s : State) : Host.Outcome State Fault Refusal :=
  complete (advance (writeV x (readV s x + kk) s))

/-- 8XY0 (43_alu.md R122). -/
def execLdReg (x y : Reg) (s : State) : Host.Outcome State Fault Refusal :=
  complete (advance (writeV x (readV s y) s))

/-- 8XY1 (43_alu.md R123). -/
def execOrReg (x y : Reg) (s : State) : Host.Outcome State Fault Refusal :=
  complete (advance (writeV x (readV s x ||| readV s y) s))

/-- 8XY2 (43_alu.md R124). -/
def execAndReg (x y : Reg) (s : State) : Host.Outcome State Fault Refusal :=
  complete (advance (writeV x (readV s x &&& readV s y) s))

/-- 8XY3 (43_alu.md R125). -/
def execXorReg (x y : Reg) (s : State) : Host.Outcome State Fault Refusal :=
  complete (advance (writeV x (readV s x ^^^ readV s y) s))

/-- 8XY4 (43_alu.md R126): the sum is bound before VF is written. -/
def execAddReg (x y : Reg) (s : State) : Host.Outcome State Fault Refusal :=
  complete (advance (flagThenResult x (carryFlag (readV s x) (readV s y))
    (fun _ => readV s x + readV s y) s))

/-- 8XY5 (43_alu.md R127): the subtraction reads V again, after the VF write. -/
def execSub (x y : Reg) (s : State) : Host.Outcome State Fault Refusal :=
  complete (advance (flagThenResult x (notBorrowFlag (readV s x) (readV s y))
    (fun t => readV t x - readV t y) s))

/-- 8XY6 (43_alu.md R128): V[Y] is neither read nor written. -/
def execShr (x _y : Reg) (s : State) : Host.Outcome State Fault Refusal :=
  complete (advance (flagThenResult x (shiftedOutRight (readV s x)) (fun t => readV t x >>> 1) s))

/-- 8XY7 (43_alu.md R129): the destination is still V[X]. -/
def execSubn (x y : Reg) (s : State) : Host.Outcome State Fault Refusal :=
  complete (advance (flagThenResult x (notBorrowFlag (readV s y) (readV s x))
    (fun t => readV t y - readV t x) s))

/-- 8XYE (43_alu.md R130): V[Y] is neither read nor written. -/
def execShl (x _y : Reg) (s : State) : Host.Outcome State Fault Refusal :=
  complete (advance (flagThenResult x (shiftedOutLeft (readV s x)) (fun t => readV t x <<< 1) s))

/-- CXKK (43_alu.md R131): `rnd` is the Step's input. -/
def execRnd (x : Reg) (kk : Byte) (s : State) : Host.Outcome State Fault Refusal :=
  complete (advance (writeV x ((stepInput s).rnd &&& kk) s))

end Sys2Proof.Machine
end

