-- ==== Sys2Proof/Machine/Display.lean ====
section
/-! DEFINITION. Frame buffer, XOR blitter and collision detector (45_display.md). -/

namespace Sys2Proof.Machine

/-- The blitter's running result: the frame buffer and whether a drawn pixel has met a set one. -/
abbrev Blit := FrameBuffer × Bool

/-- One sprite bit at row `r`, column `c`: a 1 inverts the cell and collides when the cell was set; a 0 does nothing
(45_display.md R151, R153). -/
def drawBit (bit : Bool) (r c : Nat) (acc : Blit) : Blit :=
  if bit then (fbToggle acc.1 r c, acc.2 || fbPixel acc.1 r c) else acc

/-- The first `n` columns of one sprite row, c = 0 .. n - 1, bit 7 - c at column x + c (45_display.md R151, "MSB-first"). -/
def drawRowBits (row : Byte) (r x : Nat) : Nat → Blit → Blit
  | 0, acc => acc
  | n + 1, acc => drawBit (row.getLsbD (7 - n)) r (x + n) (drawRowBits row r x n acc)

/-- The sprite rows from row `y` down, ascending (45_display.md R151). -/
def drawRows (x : Nat) : List Byte → Nat → Blit → Blit
  | [], _, acc => acc
  | row :: rest, y, acc => drawRows x rest (y + 1) (drawRowBits row y x 8 acc)

/-- 00E0 (45_display.md R150): the flag is set even when the buffer was clear. -/
def execCls (s : State) : Host.Outcome State Fault Refusal :=
  complete (advance (showFrame blankFrameBuffer s))

/-- The blit of DXYN with its operands read before any write (45_display.md R151). -/
def blitSprite (x y : Reg) (n : Height) (s : State) : Blit :=
  drawRows (readV s x).toNat (readBytes s.mem s.i.toNat n.val) (readV s y).toNat (s.fb, false)

/-- DXYN (45_display.md R151): the memory range is checked before the footprint; VF is written once, after the blit. -/
def execDrw (x y : Reg) (n : Height) (s : State) : Host.Outcome State Fault Refusal :=
  match rangeFault s.i.toNat n.val with
  | some f => raiseFault f s
  | none =>
    match footprintFault (readV s x) (readV s y) n.val with
    | some f => raiseFault f s
    | none =>
      complete (advance (writeV regF (flagByte (blitSprite x y n s).2) (showFrame (blitSprite x y n s).1 s)))

end Sys2Proof.Machine
end

