-- ==== Sys2Proof/Machine/Flow.lean ====
section
/-! DEFINITION. Control transfer and family 0 without 00E0 (41_flow.md). -/

namespace Sys2Proof.Machine

/-- 00EE (41_flow.md R100): the slot holds the address of the CALL, and 2 is added here. -/
def execRet (s : State) : Host.Outcome State Fault Refusal :=
  match popStack s with
  | none => raiseFault .stackUnderflow s
  | some (slot, t) => complete (writePc (slot + 2#16) t)

/-- 0NNN (41_flow.md R101): no-operation. -/
def execSys (_nnn : Imm12) (s : State) : Host.Outcome State Fault Refusal :=
  complete (advance s)

/-- 1NNN (41_flow.md R102). -/
def execJp (nnn : Imm12) (s : State) : Host.Outcome State Fault Refusal :=
  complete (writePc (immWord nnn) s)

/-- 2NNN (41_flow.md R103): the pushed value is the address of this CALL. -/
def execCall (nnn : Imm12) (s : State) : Host.Outcome State Fault Refusal :=
  match pushStack s.pc s with
  | none => raiseFault .stackOverflow s
  | some t => complete (writePc (immWord nnn) t)

/-- BNNN (41_flow.md R104): the offset register is always V0 and the sum is not reduced to 12 bits. -/
def execJpV0 (nnn : Imm12) (s : State) : Host.Outcome State Fault Refusal :=
  complete (writePc (byteWord (readV s 0) + immWord nnn) s)

end Sys2Proof.Machine
end

