-- ==== Sys2Proof/Machine/IndexMemory.lean ====
section
/-! DEFINITION. Index register, loads and stores (44_index_memory.md). No instruction here changes I as a side effect
(R146). -/

namespace Sys2Proof.Machine

/-- ANNN (44_index_memory.md R140). -/
def execLdI (nnn : Imm12) (s : State) : Host.Outcome State Fault Refusal :=
  complete (advance (writeI (immWord nnn) s))

/-- FX1E (44_index_memory.md R141): modulo 65536, no flag. -/
def execAddI (x : Reg) (s : State) : Host.Outcome State Fault Refusal :=
  complete (advance (writeI (s.i + byteWord (readV s x)) s))

/-- FX29 (44_index_memory.md R142): the stub writes I = 0 and reads no register. -/
def execLdF (_x : Reg) (s : State) : Host.Outcome State Fault Refusal :=
  complete (advance (writeI 0#16 s))

/-- The instruction's bytes stored from I up, the whole range checked first. -/
def storeAtI (bs : List Byte) (s : State) : Host.Outcome State Fault Refusal :=
  match rangeFault s.i.toNat bs.length with
  | some f => raiseFault f s
  | none => complete (advance { s with mem := storeBytes s.mem s.i.toNat bs })

/-- FX33 (44_index_memory.md R143). -/
def execLdB (x : Reg) (s : State) : Host.Outcome State Fault Refusal :=
  storeAtI (decimalDigits (readV s x)) s

/-- FX55 (44_index_memory.md R144). -/
def execStRegs (x : Reg) (s : State) : Host.Outcome State Fault Refusal :=
  storeAtI (regBytes s.v x) s

/-- FX65 (44_index_memory.md R145). -/
def execLdRegs (x : Reg) (s : State) : Host.Outcome State Fault Refusal :=
  match rangeFault s.i.toNat (x.val + 1) with
  | some f => raiseFault f s
  | none => complete (advance { s with v := loadRegs s.mem s.i.toNat (x.val + 1) s.v })

end Sys2Proof.Machine
end

