-- ==== Sys2Proof/Machine/KeysTimers.lean ====
section
/-! DEFINITION. Keypad and timer instructions (46_keys_timers.md). -/

namespace Sys2Proof.Machine

/-- EX9E (46_keys_timers.md R160). -/
def execSkp (x : Reg) (s : State) : Host.Outcome State Fault Refusal :=
  match keyFault (readV s x) with
  | some f => raiseFault f s
  | none => complete (skipIf (keyHeld s (readV s x).toNat) s)

/-- EXA1 (46_keys_timers.md R161). -/
def execSknp (x : Reg) (s : State) : Host.Outcome State Fault Refusal :=
  match keyFault (readV s x) with
  | some f => raiseFault f s
  | none => complete (skipIf (!keyHeld s (readV s x).toNat) s)

/-- FX07 (46_keys_timers.md R163). -/
def execLdVxDt (x : Reg) (s : State) : Host.Outcome State Fault Refusal :=
  complete (advance (writeV x s.dt s))

/-- FX0A (46_keys_timers.md R162): with no key held pc stays and nothing changes; OK in both branches. -/
def execLdVxK (x : Reg) (s : State) : Host.Outcome State Fault Refusal :=
  complete (if (stepInput s).keyHeld = 0#16 then s else advance (writeV x (pickKey (stepInput s)) s))

/-- FX15 (46_keys_timers.md R164). -/
def execLdDtVx (x : Reg) (s : State) : Host.Outcome State Fault Refusal :=
  complete (advance (writeDt (readV s x) s))

/-- FX18 (46_keys_timers.md R165): there is no sound timer; V[X] is not read. -/
def execLdStVx (_x : Reg) (s : State) : Host.Outcome State Fault Refusal :=
  complete (advance s)

end Sys2Proof.Machine
end

