-- ==== Sys2Proof/Machine/Skips.lean ====
section
/-! DEFINITION. Conditional skips on registers (42_skips.md). -/

namespace Sys2Proof.Machine

/-- 3XKK (42_skips.md R110). -/
def execSeImm (x : Reg) (kk : Byte) (s : State) : Host.Outcome State Fault Refusal :=
  complete (skipIf (readV s x == kk) s)

/-- 4XKK (42_skips.md R111). -/
def execSneImm (x : Reg) (kk : Byte) (s : State) : Host.Outcome State Fault Refusal :=
  complete (skipIf (readV s x != kk) s)

/-- 5XY0 (42_skips.md R112). -/
def execSeReg (x y : Reg) (s : State) : Host.Outcome State Fault Refusal :=
  complete (skipIf (readV s x == readV s y) s)

/-- 9XY0 (42_skips.md R113). -/
def execSneReg (x y : Reg) (s : State) : Host.Outcome State Fault Refusal :=
  complete (skipIf (readV s x != readV s y) s)

end Sys2Proof.Machine
end

