-- ==== Sys2Proof/Machine/Timer.lean ====
section
/-! DEFINITION. The Tick60 event (60_exceptions.md R184, R193). -/

namespace Sys2Proof.Machine

/-- `Tick60` (60_exceptions.md R184): it writes nothing but DT. -/
def tick60 (s : State) : State :=
  if s.loadError = false ∧ s.dt ≠ 0#8 then writeDt (s.dt - 1#8) s else s

/-- DT after `n` ticks: it stops at 0 (60_exceptions.md R184). -/
def countDown (n : Nat) (dt : Byte) : Byte := BitVec.ofNat 8 (dt.toNat - n)

/-- `n` Tick60 events one after another, as one write of DT. -/
def tickMany (n : Nat) (s : State) : State :=
  { s with dt := if s.loadError then s.dt else countDown n s.dt }

end Sys2Proof.Machine
end

