-- ==== Sys2Proof/Machine/Cycle.lean ====
section
/-! DEFINITION. The Step around an instruction (40_cycle.md R90 to R97), and the storing of a word where the next Step
fetches. -/

namespace Sys2Proof.Machine

/-- Fetch: the byte at pc, then the byte at pc + 1, the sum not reduced, most significant first (40_cycle.md R92). -/
def fetch (s : State) : Except Fault Word :=
  match memRead s.mem s.pc.toNat with
  | .error f => .error f
  | .ok hi =>
    match memRead s.mem (s.pc.toNat + 1) with
    | .error f => .error f
    | .ok lo => .ok (wordOfBytes hi lo)

/-- An Unknown word is a no-operation that reports itself (30_encoding.md R76, 40_cycle.md R97). -/
def reportUnknown (op : Word) (s : State) : Host.Outcome State Fault Refusal :=
  report .unknownOpcode op (advance s)

/-- Decode and execute the fetched word (40_cycle.md R93, R94). -/
def executeWord (op : Word) (s : State) : Host.Outcome State Fault Refusal :=
  match decodeWord op with
  | some i => exec i s
  | none => reportUnknown op s

/-- The state in which a Step not blocked by load_error fetches: the Tick60 events that came before it have acted
(60_exceptions.md R185) and `display_changed` is 0 (40_cycle.md R91). -/
def beginStep (s : State) : State :=
  { tickMany (stepInput s).ticks s with displayChanged := false }

/-- Fetch, decode, execute, or take the fetch's error (40_cycle.md R90). -/
def cycle (s : State) : Host.Outcome State Fault Refusal :=
  match fetch s with
  | .error f => raiseFault f s
  | .ok op => executeWord op s

/-- The Step is over: the next one has inputs of its own. -/
def endStep : Host.Outcome State Fault Refusal → Host.Outcome State Fault Refusal
  | .next t => .next (consumeInput t)
  | .fault f => .fault f
  | .refused r => .refused r

/-- One Step (40_cycle.md R90). While load_error is 1 it reports LoadError and changes nothing, not even
`display_changed` (60_exceptions.md R177). -/
def runStep (s : State) : Host.Outcome State Fault Refusal :=
  if s.loadError then endStep (report .loadError 0#16 s)
  else endStep (cycle (beginStep s))

/-- A pc from which a whole word can be fetched: this one if it can (40_cycle.md R92), else the entry point. -/
def fetchablePc (pc : Word) : Word := if pc.toNat + 1 < Config.memSize then pc else Config.pcReset

/-- The two bytes of `op` stored at the place the next Step fetches from (20_memory.md R53), with nothing in the way of
that fetch. -/
def placeWord (op : Word) (s : State) : State :=
  { s with
    pc := fetchablePc s.pc
    loadError := false
    mem := storeBytes s.mem (fetchablePc s.pc).toNat [highByte op, lowByte op] }

end Sys2Proof.Machine
end

