-- ==== Sys2Proof/Machine/Step.lean ====
section
/-! DEFINITION. The step function: one Step of 40_cycle.md R90 with the Tick60 events that precede it. -/

namespace Sys2Proof.Machine

/-- One Step of the core. It is total: every state has a next state. -/
def step (s : State) : Host.Outcome State Fault Refusal := runStep s

/-- `s` with the opcode-table word `w` where `step` fetches its next instruction (log 8). -/
def State.withFetchWord (s : State) (nbits w : Nat) : State := placeWord (tableWord nbits w) s

end Sys2Proof.Machine
end

