-- ==== Sys2Proof/Machine/Events.lean ====
section
/-! DEFINITION. The three atomic events at the ports (00_scope.md R7): Reset(rom), Step(key_held, rnd), Tick60. -/

namespace Sys2Proof.Machine

/-- `Reset(rom)` (70_reset_and_hazards.md R200): an image of more than 3584 bytes sets load_error and loads nothing. -/
def resetRom (rom : List Byte) : State :=
  if rom.length > Config.romMax then { State.reset with loadError := true }
  else { State.reset with mem := cellsFrom Config.romBase rom }

/-- One event at the ports (00_scope.md R7). -/
inductive Event where
  /-- Reset with a ROM image (10_state.md R36). -/
  | reset (rom : List Byte)
  /-- One Step with the keys, the random byte and the key FX0A_PICK prefers (10_state.md R33). -/
  | step (keyHeld : BitVec 16) (rnd : Byte) (pick : Key)
  /-- One pulse of tick60 (10_state.md R34). -/
  | tick60
deriving DecidableEq, Repr

/-- What one event does. Reset discards all state of the core (70_reset_and_hazards.md R200); the inputs still to come are the
platform's and stay. A Step event is `step` on a state whose first input is the event's, with no tick before it. -/
def runEvent (e : Event) (s : State) : Host.Outcome State Fault Refusal :=
  match e with
  | .reset rom => .next { resetRom rom with inputs := s.inputs, stepNo := s.stepNo }
  | .tick60 => .next (tick60 s)
  | .step keyHeld rnd pick =>
    step { s with inputs := { ticks := 0, keyHeld := keyHeld, rnd := rnd, pick := pick } :: s.inputs }

/-- A sequence of events, each on the state the one before left (60_exceptions.md R185). -/
def runEvents : List Event → State → Host.Outcome State Fault Refusal
  | [], s => .next s
  | e :: rest, s =>
    match runEvent e s with
    | .next t => runEvents rest t
    | .fault f => .fault f
    | .refused r => .refused r

end Sys2Proof.Machine
end

