-- ==== Sys2Proof/Safety.lean ====
section
/-! DEFINITION. The terms the statements are written in: what a Step or an instruction leaves unchanged, how it ends, what a
safe run is, the invariants of 70_reset_and_hazards.md R211 and R212, and the placed sprite of 45_display.md R153. -/

namespace Sys2Proof.Machine

/-! ### Frames -/

/-- The state elements of 10_state.md R30. -/
inductive Field where
  | v | i | pc | stack | sp | dt | fb | displayChanged | mem | loadError
deriving DecidableEq, Repr

/-- Every state element not listed is unchanged from `s` to `t` (00_scope.md R13); memory is compared byte by byte. The inputs still to come are unchanged too. The outputs result and
info are said apart (`EndsOk`, `Raised`). -/
def KeepsExcept (changed : List Field) (s t : State) : Prop :=
  (Field.v ∉ changed → t.v = s.v) ∧
  (Field.i ∉ changed → t.i = s.i) ∧
  (Field.pc ∉ changed → t.pc = s.pc) ∧
  (Field.stack ∉ changed → t.stack = s.stack) ∧
  (Field.sp ∉ changed → t.sp = s.sp) ∧
  (Field.dt ∉ changed → t.dt = s.dt) ∧
  (Field.fb ∉ changed → t.fb = s.fb) ∧
  (Field.displayChanged ∉ changed → t.displayChanged = s.displayChanged) ∧
  (Field.mem ∉ changed → ∀ a, memByte t.mem a = memByte s.mem a) ∧
  (Field.loadError ∉ changed → t.loadError = s.loadError) ∧
  t.inputs = s.inputs ∧ t.stepNo = s.stepNo

/-- Every V register not listed is unchanged. -/
def KeepsRegsExcept (changed : List Reg) (s t : State) : Prop :=
  ∀ r : Reg, r ∉ changed → t.v[r.val] = s.v[r.val]

/-- Every byte of memory outside the `len` bytes from `base` is unchanged. -/
def KeepsBytesOutside (base len : Nat) (s t : State) : Prop :=
  ∀ a, (a < base ∨ base + len ≤ a) → memByte t.mem a = memByte s.mem a

/-- `pc <- (pc + 2) mod 65536`, way "next" of 40_cycle.md R95. -/
def PcNext (s t : State) : Prop := t.pc.toNat = (s.pc.toNat + 2) % 65536

/-- `pc <- (pc + 4) mod 65536` when `c`, else `pc <- (pc + 2) mod 65536` (42_skips.md). -/
def PcSkipsWhen (c : Prop) (s t : State) : Prop :=
  (c → t.pc.toNat = (s.pc.toNat + 4) % 65536) ∧ (¬c → t.pc.toNat = (s.pc.toNat + 2) % 65536)

/-! ### Endings -/

/-- The Step ends OK: result 0 and info 0 (60_exceptions.md R170). -/
def EndsOk (t : State) : Prop := t.result = .ok ∧ t.info = 0#16

/-- `t` is `s` with an error of kind `r` and value `info` taken: nothing changes but `display_changed`, which is 0, and the
outputs (40_cycle.md R96). -/
def Raised (r : Result) (info : Nat) (s t : State) : Prop :=
  t = { s with displayChanged := false, result := r, info := BitVec.ofNat 16 info }

/-- The Step from `s` is safe: it does not end in a fatal kind (60_exceptions.md R170). -/
def SafeStep (s : State) : Prop := ∃ t, step s = .next t ∧ t.result.fatal = false

/-- The word the Step from `s` fetches and decodes is the instruction `i` (40_cycle.md R92, R93). -/
def Fetches (s : State) (i : Instr) : Prop :=
  s.loadError = false ∧ s.pc.toNat + 1 < Config.memSize ∧
    decodeWord (wordOfBytes (memByte s.mem s.pc.toNat) (memByte s.mem (s.pc.toNat + 1))) = some i

/-! ### Invariants -/

/-- Memory is in canonical form, pc never exceeds 0x10FE and no stack slot exceeds 0x0FFE (70_reset_and_hazards.md R212). -/
def InBounds (s : State) : Prop :=
  Memory.wf s.mem ∧ s.pc.toNat ≤ 0x10FE ∧ ∀ j : Fin 16, s.stack[j.val].toNat ≤ 0x0FFE

/-- An address that is even and at least 0x200. -/
def GoodTarget (a : Nat) : Prop := a % 2 = 0 ∧ 0x200 ≤ a

/-- pc and every slot in use are even and at least 0x200 (70_reset_and_hazards.md R211). -/
def EvenAndHigh (s : State) : Prop :=
  GoodTarget s.pc.toNat ∧ ∀ j : Fin 16, j.val < s.sp.val → GoodTarget s.stack[j.val].toNat

/-- What 70_reset_and_hazards.md R211 asks of each executed 1NNN, 2NNN and BNNN. -/
def TargetIsGood (s : State) (i : Instr) : Prop :=
  (∀ nnn, i = .jp nnn → GoodTarget nnn.toNat) ∧
  (∀ nnn, i = .call nnn → GoodTarget nnn.toNat) ∧
  (∀ nnn, i = .jpV0 nnn → GoodTarget (s.v[0].toNat + nnn.toNat))

/-! ### Drawing -/

/-- A DXYN with `n` rows raises nothing: no rows, or its bytes are in memory and its footprint is in the grid (45_display.md
R152). -/
def DrawIsInside (s : State) (x y : Reg) (n : Height) : Prop :=
  n.val = 0 ∨ (s.i.toNat + n.val - 1 ≤ 4095 ∧ s.v[x.val].toNat ≤ 56 ∧ s.v[y.val].toNat + n.val ≤ 32)

/-- The sprite of DXYN placed on an empty grid, at row `r`, column `c`: sprite row r - V[Y] is the byte at I + (r - V[Y]), and
its bit 7 - (c - V[X]) lands in column c (45_display.md R152, R153). -/
def placedSprite (s : State) (x y : Reg) (n : Height) (r c : Nat) : Bool :=
  let x0 := s.v[x.val].toNat
  let y0 := s.v[y.val].toNat
  decide (y0 ≤ r ∧ r < y0 + n.val ∧ x0 ≤ c ∧ c < x0 + 8) &&
    (memByte s.mem (s.i.toNat + (r - y0))).getLsbD (7 - (c - x0))

end Sys2Proof.Machine
end

