-- ==== Sys2Proof/Certificates/Slice0/Obligations.lean ====
section
/-! DEFINITION. The statements for the provers. Each docstring names the rule of spec/ it formalises; where the rule carries
a `[decision: ...]` or `[derived: ...]` mark of the spec, the statement says so. -/

open Sys2Proof Sys2Proof.Machine

/-! ## Control transfer (41_flow.md) -/

/-- 41_flow.md R102: `pc <- zext_16(NNN)`, no flag, no exception, nothing else changes; only NNN = 0xFFF makes the next fetch
fault. -/
def Obligations.JumpSetsPcToItsOperand : Prop :=
  ∀ (nnn : Imm12) (s : State), ∃ t, exec (.jp nnn) s = .next t ∧ EndsOk t ∧
    t.pc.toNat = nnn.toNat ∧ KeepsExcept [.pc] s t ∧
    (nnn.toNat ≠ 0xFFF → ∃ op, fetch t = .ok op) ∧
    (nnn.toNat = 0xFFF → fetch t = .error (.outOfBounds 0x1000#16))

/-- 41_flow.md R103: at depth 16 StackOverflow(0) and nothing else; below it the CALL's own address goes to Stack[sp], sp
grows by one, and pc is NNN; a pc that was fetched from is at most 0x0FFE. -/
def Obligations.CallPushesItsOwnAddressOrOverflows : Prop :=
  ∀ (nnn : Imm12) (s : State),
    (s.sp.val = 16 → ∃ t, exec (.call nnn) s = .next t ∧ Raised .stackOverflow 0 s t) ∧
    (∀ h : s.sp.val < 16, ∃ t, exec (.call nnn) s = .next t ∧ EndsOk t ∧
      t.stack[s.sp.val] = s.pc ∧
      (∀ j : Fin 16, j.val ≠ s.sp.val → t.stack[j.val] = s.stack[j.val]) ∧
      t.sp.val = s.sp.val + 1 ∧ t.pc.toNat = nnn.toNat ∧ KeepsExcept [.stack, .sp, .pc] s t) ∧
    (∀ op, fetch s = .ok op → s.pc.toNat ≤ 0x0FFE)

/-- 41_flow.md R100: at depth 0 StackUnderflow(0) and nothing else; above it sp falls by one and pc is the popped slot plus 2,
the slot keeping its value. -/
def Obligations.ReturnPopsAndAddsTwoOrUnderflows : Prop :=
  ∀ s : State,
    (s.sp.val = 0 → ∃ t, exec .ret s = .next t ∧ Raised .stackUnderflow 0 s t) ∧
    (∀ h : 0 < s.sp.val, ∃ t, exec .ret s = .next t ∧ EndsOk t ∧
      t.sp.val = s.sp.val - 1 ∧
      t.pc.toNat = ((s.stack[s.sp.val - 1]'(by omega)).toNat + 2) % 65536 ∧ KeepsExcept [.sp, .pc] s t)

/-- 41_flow.md R104: `pc <- (zext_16(V[0]) + zext_16(NNN)) mod 65536`, never reduced to 12 bits and at most 0x10FE; a pc from
0x1000 up faults at the next fetch with itself as the address. -/
def Obligations.IndexedJumpAddsV0 : Prop :=
  ∀ (nnn : Imm12) (s : State), ∃ t, exec (.jpV0 nnn) s = .next t ∧ EndsOk t ∧
    t.pc.toNat = (s.v[0].toNat + nnn.toNat) % 65536 ∧ t.pc.toNat ≤ 0x10FE ∧ KeepsExcept [.pc] s t ∧
    (t.pc.toNat ≥ 0x1000 → fetch t = .error (.outOfBounds t.pc))

/-- 41_flow.md R100, R103 and the source's "Stack balance": a CALL followed at once by a RET comes back to the instruction
after the CALL with the stack as deep as before. -/
def Obligations.CallThenReturnComesBack : Prop :=
  ∀ (nnn : Imm12) (s : State), s.sp.val < 16 → ∃ t u, exec (.call nnn) s = .next t ∧ exec .ret t = .next u ∧
    EndsOk u ∧ u.pc.toNat = (s.pc.toNat + 2) % 65536 ∧ u.sp = s.sp ∧ KeepsExcept [.stack, .pc] s u

/-- 41_flow.md R101 and 46_keys_timers.md R165 (spec decisions D15, D16): SYS with any operand and LD_ST_VX with any register only
advance pc, and end OK. -/
def Obligations.SysAndSoundTimerOnlyAdvancePc : Prop :=
  ∀ (i : Instr) (s : State), ((∃ nnn, i = .sys nnn) ∨ (∃ x, i = .ldStVx x)) →
    ∃ t, exec i s = .next t ∧ EndsOk t ∧ PcNext s t ∧ KeepsExcept [.pc] s t

/-! ## Skips (42_skips.md) -/

/-- 42_skips.md R110, R111: skip on a register equal to, or different from, an immediate. -/
def Obligations.SkipsOnImmediate : Prop :=
  ∀ (x : Reg) (kk : Byte) (s : State),
    (∃ t, exec (.seImm x kk) s = .next t ∧ EndsOk t ∧
      PcSkipsWhen (s.v[x.val].toNat = kk.toNat) s t ∧ KeepsExcept [.pc] s t) ∧
    (∃ t, exec (.sneImm x kk) s = .next t ∧ EndsOk t ∧
      PcSkipsWhen (s.v[x.val].toNat ≠ kk.toNat) s t ∧ KeepsExcept [.pc] s t)

/-- 42_skips.md R112, R113 (spec decision D12 on their encodings): skip on two registers equal, or different; with X = Y the
first always skips and the second never does. -/
def Obligations.SkipsOnRegisters : Prop :=
  ∀ (x y : Reg) (s : State),
    (∃ t, exec (.seReg x y) s = .next t ∧ EndsOk t ∧
      PcSkipsWhen (s.v[x.val].toNat = s.v[y.val].toNat) s t ∧ KeepsExcept [.pc] s t) ∧
    (∃ t, exec (.sneReg x y) s = .next t ∧ EndsOk t ∧
      PcSkipsWhen (s.v[x.val].toNat ≠ s.v[y.val].toNat) s t ∧ KeepsExcept [.pc] s t)

/-! ## Arithmetic and logic (43_alu.md) -/

/-- 43_alu.md R120, R122: load an immediate, copy a register. -/
def Obligations.LoadsWriteTheirDestination : Prop :=
  (∀ (x : Reg) (kk : Byte) (s : State), ∃ t, exec (.ldImm x kk) s = .next t ∧ EndsOk t ∧
    t.v[x.val] = kk ∧ KeepsRegsExcept [x] s t ∧ PcNext s t ∧ KeepsExcept [.v, .pc] s t) ∧
  (∀ (x y : Reg) (s : State), ∃ t, exec (.ldReg x y) s = .next t ∧ EndsOk t ∧
    t.v[x.val] = s.v[y.val] ∧ KeepsRegsExcept [x] s t ∧ PcNext s t ∧ KeepsExcept [.v, .pc] s t)

/-- 43_alu.md R121: add an immediate modulo 256 and set no flag: VF changes only as the destination. -/
def Obligations.AddImmediateWrapsAndSetsNoFlag : Prop :=
  ∀ (x : Reg) (kk : Byte) (s : State), ∃ t, exec (.addImm x kk) s = .next t ∧ EndsOk t ∧
    t.v[x.val].toNat = (s.v[x.val].toNat + kk.toNat) % 256 ∧
    KeepsRegsExcept [x] s t ∧ PcNext s t ∧ KeepsExcept [.v, .pc] s t

/-- 43_alu.md R123, R124, R125: the three logic instructions bit by bit; VF is not written. -/
def Obligations.LogicActsBitByBit : Prop :=
  ∀ (x y : Reg) (s : State),
    (∃ t, exec (.orReg x y) s = .next t ∧ EndsOk t ∧
      (∀ b < 8, t.v[x.val].getLsbD b = (s.v[x.val].getLsbD b || s.v[y.val].getLsbD b)) ∧
      KeepsRegsExcept [x] s t ∧ PcNext s t ∧ KeepsExcept [.v, .pc] s t) ∧
    (∃ t, exec (.andReg x y) s = .next t ∧ EndsOk t ∧
      (∀ b < 8, t.v[x.val].getLsbD b = (s.v[x.val].getLsbD b && s.v[y.val].getLsbD b)) ∧
      KeepsRegsExcept [x] s t ∧ PcNext s t ∧ KeepsExcept [.v, .pc] s t) ∧
    (∃ t, exec (.xorReg x y) s = .next t ∧ EndsOk t ∧
      (∀ b < 8, t.v[x.val].getLsbD b = (s.v[x.val].getLsbD b ^^ s.v[y.val].getLsbD b)) ∧
      KeepsRegsExcept [x] s t ∧ PcNext s t ∧ KeepsExcept [.v, .pc] s t)

/-- 43_alu.md R126: the sum of the old values modulo 256 in V[X], also when X is 0xF; the carry in VF unless X is 0xF. With X or
Y = 0xF the outcome (sum bound first, V[X] written after VF) is the spec's decision D13 (log 10). -/
def Obligations.AddWithCarryOut : Prop :=
  ∀ (x y : Reg) (s : State), ∃ t, exec (.addReg x y) s = .next t ∧ EndsOk t ∧
    t.v[x.val].toNat = (s.v[x.val].toNat + s.v[y.val].toNat) % 256 ∧
    (x ≠ regF → t.v[15].toNat = if s.v[x.val].toNat + s.v[y.val].toNat > 255 then 1 else 0) ∧
    KeepsRegsExcept [x, regF] s t ∧ PcNext s t ∧ KeepsExcept [.v, .pc] s t

/-- 43_alu.md R127: VF is 0 on borrow, else 1, unless X is 0xF; the difference is taken of the registers as the VF write left
them, which decides X or Y = 0xF and is the spec's decision D13 (log 10). -/
def Obligations.SubtractWithNotBorrow : Prop :=
  ∀ (x y : Reg) (s : State), ∃ t, exec (.sub x y) s = .next t ∧ EndsOk t ∧
    (let flag := if s.v[x.val].toNat < s.v[y.val].toNat then 0 else 1
     let a := if x = regF then flag else s.v[x.val].toNat
     let b := if y = regF then flag else s.v[y.val].toNat
     t.v[x.val].toNat = (a + 256 - b) % 256 ∧ (x ≠ regF → t.v[15].toNat = flag)) ∧
    KeepsRegsExcept [x, regF] s t ∧ PcNext s t ∧ KeepsExcept [.v, .pc] s t

/-- 43_alu.md R129: as R127 with the operands exchanged; the destination is still V[X]. The value with X or Y = 0xF is the
spec's decision D13 (log 10). -/
def Obligations.ReverseSubtractWithNotBorrow : Prop :=
  ∀ (x y : Reg) (s : State), ∃ t, exec (.subn x y) s = .next t ∧ EndsOk t ∧
    (let flag := if s.v[y.val].toNat < s.v[x.val].toNat then 0 else 1
     let a := if x = regF then flag else s.v[x.val].toNat
     let b := if y = regF then flag else s.v[y.val].toNat
     t.v[x.val].toNat = (b + 256 - a) % 256 ∧ (x ≠ regF → t.v[15].toNat = flag)) ∧
    KeepsRegsExcept [x, regF] s t ∧ PcNext s t ∧ KeepsExcept [.v, .pc] s t

/-- 43_alu.md R128, R130: shifts of V[X] in place by one; VF is the old bit 0 or bit 7 unless X is 0xF; with X = 0xF the shift
acts on the flag just written, the spec's decision D13 (log 10). V[Y] is not used. -/
def Obligations.ShiftsMoveOneBitIntoVF : Prop :=
  ∀ (x y : Reg) (s : State),
    (∃ t, exec (.shr x y) s = .next t ∧ EndsOk t ∧
      (let flag := s.v[x.val].toNat % 2
       let a := if x = regF then flag else s.v[x.val].toNat
       t.v[x.val].toNat = a / 2 ∧ (x ≠ regF → t.v[15].toNat = flag)) ∧
      KeepsRegsExcept [x, regF] s t ∧ PcNext s t ∧ KeepsExcept [.v, .pc] s t) ∧
    (∃ t, exec (.shl x y) s = .next t ∧ EndsOk t ∧
      (let flag := s.v[x.val].toNat / 128
       let a := if x = regF then flag else s.v[x.val].toNat
       t.v[x.val].toNat = a * 2 % 256 ∧ (x ≠ regF → t.v[15].toNat = flag)) ∧
      KeepsRegsExcept [x, regF] s t ∧ PcNext s t ∧ KeepsExcept [.v, .pc] s t)

/-- 43_alu.md R133 (spec decision D13, log 10): the table of the five flag-writing instructions when an operand is VF. -/
def Obligations.FlagRegisterAsOperandTable : Prop :=
  ∀ (r : Reg) (s : State) (a f : Nat), r ≠ regF → s.v[r.val].toNat = a → s.v[15].toNat = f →
    ((∃ t, exec (.addReg r regF) s = .next t ∧
        t.v[r.val].toNat = (a + f) % 256 ∧ t.v[15].toNat = if a + f > 255 then 1 else 0) ∧
     (∃ t, exec (.addReg regF r) s = .next t ∧ t.v[15].toNat = (f + a) % 256) ∧
     (∃ t, exec (.addReg regF regF) s = .next t ∧ t.v[15].toNat = 2 * f % 256) ∧
     (∃ t, exec (.sub r regF) s = .next t ∧
        t.v[r.val].toNat = (a + 256 - (if a ≥ f then 1 else 0)) % 256 ∧
        t.v[15].toNat = if a ≥ f then 1 else 0) ∧
     (∃ t, exec (.sub regF r) s = .next t ∧
        t.v[15].toNat = ((if f ≥ a then 1 else 0) + 256 - a) % 256) ∧
     (∃ t, exec (.sub regF regF) s = .next t ∧ t.v[15].toNat = 0) ∧
     (∃ t, exec (.subn r regF) s = .next t ∧
        t.v[r.val].toNat = ((if f ≥ a then 1 else 0) + 256 - a) % 256 ∧
        t.v[15].toNat = if f ≥ a then 1 else 0) ∧
     (∃ t, exec (.subn regF r) s = .next t ∧
        t.v[15].toNat = (a + 256 - (if a ≥ f then 1 else 0)) % 256) ∧
     (∃ t, exec (.subn regF regF) s = .next t ∧ t.v[15].toNat = 0)) ∧
    (∀ y : Reg,
      (∃ t, exec (.shr regF y) s = .next t ∧ t.v[15].toNat = 0) ∧
      (∃ t, exec (.shl regF y) s = .next t ∧ t.v[15].toNat = if f ≥ 0x80 then 2 else 0))

/-- 43_alu.md R131 (spec decision D6, log 3): V[X] is the Step's random byte masked by KK, for every such byte; so it never
exceeds KK. -/
def Obligations.RandomByteIsMasked : Prop :=
  ∀ (x : Reg) (kk : Byte) (s : State), ∃ t, exec (.rnd x kk) s = .next t ∧ EndsOk t ∧
    (∀ b < 8, t.v[x.val].getLsbD b = ((stepInput s).rnd.getLsbD b && kk.getLsbD b)) ∧
    t.v[x.val].toNat ≤ kk.toNat ∧
    KeepsRegsExcept [x] s t ∧ PcNext s t ∧ KeepsExcept [.v, .pc] s t

/-! ## Index register, loads and stores (44_index_memory.md) -/

/-- 44_index_memory.md R140: `I <- zext_16(NNN)`. -/
def Obligations.LoadIndexTakesImmediate : Prop :=
  ∀ (nnn : Imm12) (s : State), ∃ t, exec (.ldI nnn) s = .next t ∧ EndsOk t ∧
    t.i.toNat = nnn.toNat ∧ PcNext s t ∧ KeepsExcept [.i, .pc] s t

/-- 44_index_memory.md R141, R142 (spec decisions D18, D14): FX1E adds V[X] to I modulo 65536 and sets no flag; FX29 writes
I = 0 whatever V[X] is. -/
def Obligations.AddToIndexWrapsAndFontStubClearsIndex : Prop :=
  ∀ (x : Reg) (s : State),
    (∃ t, exec (.addI x) s = .next t ∧ EndsOk t ∧
      t.i.toNat = (s.i.toNat + s.v[x.val].toNat) % 65536 ∧ PcNext s t ∧ KeepsExcept [.i, .pc] s t) ∧
    (∃ t, exec (.ldF x) s = .next t ∧ EndsOk t ∧ t.i.toNat = 0 ∧ PcNext s t ∧ KeepsExcept [.i, .pc] s t)

/-- 44_index_memory.md R143 (spec decisions D17, D23; digit order log 12): three digits at I, I + 1, I + 2, or OutOfBounds with
the lowest offending address and nothing stored. -/
def Obligations.DecimalDigitsAreStoredOrNothingIs : Prop :=
  ∀ (x : Reg) (s : State), Memory.wf s.mem →
    (s.i.toNat + 2 > 4095 → ∃ t, exec (.ldB x) s = .next t ∧
      Raised .outOfBounds (max s.i.toNat 4096) s t) ∧
    (s.i.toNat + 2 ≤ 4095 → ∃ t, exec (.ldB x) s = .next t ∧ EndsOk t ∧
      (memByte t.mem s.i.toNat).toNat = s.v[x.val].toNat / 100 ∧
      (memByte t.mem (s.i.toNat + 1)).toNat = s.v[x.val].toNat / 10 % 10 ∧
      (memByte t.mem (s.i.toNat + 2)).toNat = s.v[x.val].toNat % 10 ∧
      KeepsBytesOutside s.i.toNat 3 s t ∧ PcNext s t ∧ KeepsExcept [.mem, .pc] s t)

/-- 44_index_memory.md R144 (spec decision D23): V0..VX go to I..I + X, or OutOfBounds and nothing stored; I is unchanged. -/
def Obligations.RegistersAreStoredOrNothingIs : Prop :=
  ∀ (x : Reg) (s : State), Memory.wf s.mem →
    (s.i.toNat + x.val > 4095 → ∃ t, exec (.stRegs x) s = .next t ∧
      Raised .outOfBounds (max s.i.toNat 4096) s t) ∧
    (s.i.toNat + x.val ≤ 4095 → ∃ t, exec (.stRegs x) s = .next t ∧ EndsOk t ∧
      (∀ k : Reg, k.val ≤ x.val → memByte t.mem (s.i.toNat + k.val) = s.v[k.val]) ∧
      KeepsBytesOutside s.i.toNat (x.val + 1) s t ∧ PcNext s t ∧ KeepsExcept [.mem, .pc] s t)

/-- 44_index_memory.md R145 (spec decision D23): V0..VX come from I..I + X, or OutOfBounds and no register changes; I and memory
are unchanged. -/
def Obligations.RegistersAreLoadedOrNoneIs : Prop :=
  ∀ (x : Reg) (s : State),
    (s.i.toNat + x.val > 4095 → ∃ t, exec (.ldRegs x) s = .next t ∧
      Raised .outOfBounds (max s.i.toNat 4096) s t) ∧
    (s.i.toNat + x.val ≤ 4095 → ∃ t, exec (.ldRegs x) s = .next t ∧ EndsOk t ∧
      (∀ k : Reg, k.val ≤ x.val → t.v[k.val] = memByte s.mem (s.i.toNat + k.val)) ∧
      (∀ k : Reg, x.val < k.val → t.v[k.val] = s.v[k.val]) ∧ PcNext s t ∧ KeepsExcept [.v, .pc] s t)

/-- 20_memory.md R66, the source's "Register dump/load round-trip": whatever the registers hold in between, FX65 after FX55 with
the same X and I restores V0..VX and leaves the others as they then are. -/
def Obligations.DumpThenLoadRestoresRegisters : Prop :=
  ∀ (x : Reg) (s : State) (w : Vector Byte 16), Memory.wf s.mem → s.i.toNat + x.val ≤ 4095 →
    ∃ t u, exec (.stRegs x) s = .next t ∧ exec (.ldRegs x) { t with v := w } = .next u ∧ EndsOk u ∧
      (∀ k : Reg, k.val ≤ x.val → u.v[k.val] = s.v[k.val]) ∧
      (∀ k : Reg, x.val < k.val → u.v[k.val] = w[k.val])

/-! ## Display (45_display.md) -/

/-- 45_display.md R150 (spec decision D21): every pixel clear and the flag set, VF untouched. -/
def Obligations.ClearScreenClearsEveryPixel : Prop :=
  ∀ s : State, ∃ t, exec .cls s = .next t ∧ EndsOk t ∧
    (∀ r < 32, ∀ c < 64, pixel t r c = false) ∧ t.displayChanged = true ∧ PcNext s t ∧
    KeepsExcept [.fb, .displayChanged, .pc] s t

/-- 45_display.md R152 (spec decisions D10, D24): the memory range is checked before the footprint, the footprint whatever the
sprite bits are, and a draw with neither fault, N = 0 included, completes. -/
def Obligations.DrawChecksMemoryThenFootprint : Prop :=
  ∀ (x y : Reg) (n : Height) (s : State),
    (0 < n.val → s.i.toNat + n.val - 1 > 4095 →
      ∃ t, exec (.drw x y n) s = .next t ∧ Raised .outOfBounds (max s.i.toNat 4096) s t) ∧
    (0 < n.val → s.i.toNat + n.val - 1 ≤ 4095 →
      (s.v[x.val].toNat > 56 ∨ s.v[y.val].toNat + n.val > 32) →
      ∃ t, exec (.drw x y n) s = .next t ∧
        Raised .drawOutOfBounds (s.v[x.val].toNat * 256 + s.v[y.val].toNat) s t) ∧
    (DrawIsInside s x y n → ∃ t, exec (.drw x y n) s = .next t ∧ EndsOk t)

/-- 45_display.md R151, R153, R154 (spec decisions D10, D11, D22; log 11): the blitter's loop leaves FB xor the placed sprite, VF is 1
exactly when a 1 bit of the sprite met a set pixel, the flag is set; with N = 0 nothing is drawn and VF is 0. -/
def Obligations.DrawXorsThePlacedSprite : Prop :=
  ∀ (x y : Reg) (n : Height) (s : State), DrawIsInside s x y n →
    ∃ t, exec (.drw x y n) s = .next t ∧ EndsOk t ∧
      (∀ r < 32, ∀ c < 64, pixel t r c = (pixel s r c ^^ placedSprite s x y n r c)) ∧
      ((∃ r < 32, ∃ c < 64, placedSprite s x y n r c = true ∧ pixel s r c = true) → t.v[15].toNat = 1) ∧
      ((¬∃ r < 32, ∃ c < 64, placedSprite s x y n r c = true ∧ pixel s r c = true) → t.v[15].toNat = 0) ∧
      t.displayChanged = true ∧ KeepsRegsExcept [regF] s t ∧ PcNext s t ∧
      KeepsExcept [.v, .fb, .displayChanged, .pc] s t

/-- 45_display.md R153, the source's "Draw idempotence": the same draw twice, neither coordinate in VF, restores the frame buffer; the
second draw reports a collision exactly when some pixel under a 1 bit was clear before the pair. A draw that is inside, N = 0
included, is one that raises nothing by the spec's decisions D10 and D11 (log 11). -/
def Obligations.DrawTwiceRestoresFrameBuffer : Prop :=
  ∀ (x y : Reg) (n : Height) (s : State), x ≠ regF → y ≠ regF → DrawIsInside s x y n →
    ∃ t u, exec (.drw x y n) s = .next t ∧ exec (.drw x y n) t = .next u ∧ EndsOk u ∧ u.fb = s.fb ∧
      ((∃ r < 32, ∃ c < 64, placedSprite s x y n r c = true ∧ pixel s r c = false) → u.v[15].toNat = 1) ∧
      ((¬∃ r < 32, ∃ c < 64, placedSprite s x y n r c = true ∧ pixel s r c = false) → u.v[15].toNat = 0)

/-! ## Keys and timer (46_keys_timers.md) -/

/-- 46_keys_timers.md R160, R161 (spec decisions D7, D8): a key number above 15 raises KeyIndexOutOfRange; otherwise the two skips
test the level of that key at this Step. -/
def Obligations.KeySkipsTestTheSampledLevel : Prop :=
  ∀ (x : Reg) (s : State),
    (s.v[x.val].toNat > 15 →
      (∃ t, exec (.skp x) s = .next t ∧ Raised .keyIndexOutOfRange s.v[x.val].toNat s t) ∧
      (∃ t, exec (.sknp x) s = .next t ∧ Raised .keyIndexOutOfRange s.v[x.val].toNat s t)) ∧
    (s.v[x.val].toNat ≤ 15 →
      (∃ t, exec (.skp x) s = .next t ∧ EndsOk t ∧
        PcSkipsWhen ((stepInput s).keyHeld.getLsbD s.v[x.val].toNat = true) s t ∧ KeepsExcept [.pc] s t) ∧
      (∃ t, exec (.sknp x) s = .next t ∧ EndsOk t ∧
        PcSkipsWhen ((stepInput s).keyHeld.getLsbD s.v[x.val].toNat = false) s t ∧ KeepsExcept [.pc] s t))

/-- 46_keys_timers.md R162 (spec decision D9, log 4): with no key held FX0A holds; otherwise V[X] is a held key, the lowest one
unless the preferred key is held. -/
def Obligations.KeyWaitHoldsOrReportsAHeldKey : Prop :=
  ∀ (x : Reg) (s : State),
    ((stepInput s).keyHeld = 0#16 → ∃ t, exec (.ldVxK x) s = .next t ∧ EndsOk t ∧ KeepsExcept [] s t) ∧
    ((stepInput s).keyHeld ≠ 0#16 → ∃ t, exec (.ldVxK x) s = .next t ∧ EndsOk t ∧
      t.v[x.val].toNat < 16 ∧ (stepInput s).keyHeld.getLsbD t.v[x.val].toNat = true ∧
      ((stepInput s).keyHeld.getLsbD (stepInput s).pick.val = true →
        t.v[x.val].toNat = (stepInput s).pick.val) ∧
      ((stepInput s).keyHeld.getLsbD (stepInput s).pick.val = false →
        ∀ k < t.v[x.val].toNat, (stepInput s).keyHeld.getLsbD k = false) ∧
      KeepsRegsExcept [x] s t ∧ PcNext s t ∧ KeepsExcept [.v, .pc] s t)

/-- 46_keys_timers.md R163: V[X] <- DT, DT unchanged. -/
def Obligations.DelayTimerIsRead : Prop :=
  ∀ (x : Reg) (s : State), ∃ t, exec (.ldVxDt x) s = .next t ∧ EndsOk t ∧
    t.v[x.val] = s.dt ∧ KeepsRegsExcept [x] s t ∧ PcNext s t ∧ KeepsExcept [.v, .pc] s t

/-- 46_keys_timers.md R164: DT <- V[X], any value; the first decrement after it is the next Tick60. -/
def Obligations.DelayTimerIsWritten : Prop :=
  ∀ (x : Reg) (s : State), ∃ t, exec (.ldDtVx x) s = .next t ∧ EndsOk t ∧
    t.dt = s.v[x.val] ∧ PcNext s t ∧ KeepsExcept [.dt, .pc] s t ∧
    (s.loadError = false → (tick60 t).dt.toNat = s.v[x.val].toNat - 1)

/-- 60_exceptions.md R184 (spec decision D4): Tick60 takes 1 from a DT that is not 0 while load_error is 0, and writes nothing
else. -/
def Obligations.TickDecrementsOnlyDelayTimer : Prop :=
  ∀ s : State,
    (s.loadError = false → s.dt.toNat ≠ 0 → (tick60 s).dt.toNat = s.dt.toNat - 1) ∧
    (s.loadError = true ∨ s.dt.toNat = 0 → tick60 s = s) ∧
    tick60 s = { s with dt := (tick60 s).dt }

/-- 60_exceptions.md R185 (spec decision D5; log 5): the ticks a Step takes in before it are that many Tick60 events one after
another. -/
def Obligations.TicksBeforeStepAreTickEvents : Prop :=
  ∀ (n : Nat) (s : State), tickMany n s = Nat.iterate tick60 n s

/-! ## The Step (40_cycle.md) -/

/-- 40_cycle.md R92 and 20_memory.md R53, R55: two byte reads, big-endian, and the two ways fetch raises OutOfBounds. That an odd
pc and one below 0x200 are fetched like any other is the spec's decision D19 (log 15). -/
def Obligations.FetchIsBigEndianAndBoundsChecked : Prop :=
  ∀ s : State,
    (s.pc.toNat ≤ 4094 → ∃ op, fetch s = .ok op ∧
      op.toNat = (memByte s.mem s.pc.toNat).toNat * 256 + (memByte s.mem (s.pc.toNat + 1)).toNat) ∧
    (s.pc.toNat = 4095 → fetch s = .error (.outOfBounds 4096#16)) ∧
    (s.pc.toNat ≥ 4096 → fetch s = .error (.outOfBounds s.pc))

/-- 40_cycle.md R90 (log 3, 5): when the two bytes at pc decode to an instruction, the Step is that instruction's meaning on the
state with the preceding ticks taken and `display_changed` 0, and then this Step's inputs are spent. -/
def Obligations.StepRunsTheDecodedInstruction : Prop :=
  ∀ (s : State) (i : Instr), Fetches s i →
    ∃ t, exec i { s with dt := countDown (stepInput s).ticks s.dt, displayChanged := false } = .next t ∧
      step s = .next { t with inputs := s.inputs.tail, stepNo := s.stepNo + 1 }

/-- 40_cycle.md R92, R96 (spec decision D23): a Step whose fetch leaves memory reports the lowest address above 4095 it would have
read; nothing else changes but the cleared flag, the ticks taken, and the spent inputs. -/
def Obligations.FetchErrorIsReported : Prop :=
  ∀ s : State, s.loadError = false → s.pc.toNat ≥ 4095 →
    step s = .next { s with
      dt := countDown (stepInput s).ticks s.dt
      displayChanged := false
      result := .outOfBounds
      info := BitVec.ofNat 16 (max s.pc.toNat 4096)
      inputs := s.inputs.tail
      stepNo := s.stepNo + 1 }

/-- 30_encoding.md R76, 60_exceptions.md R176 (spec decision D12): a Step over an Unknown word advances pc by 2, reports
UnknownOpcode with the word, and changes nothing else. -/
def Obligations.UnknownWordIsSkippedAndReported : Prop :=
  ∀ (s : State) (op : Word), s.loadError = false → fetch s = .ok op → decodeWord op = none →
    ∃ t, step s = .next t ∧ t.result = .unknownOpcode ∧ t.info = op ∧
      t.pc.toNat = (s.pc.toNat + 2) % 65536 ∧
      t = { s with
        dt := countDown (stepInput s).ticks s.dt
        displayChanged := false
        pc := t.pc
        result := t.result
        info := t.info
        inputs := s.inputs.tail
        stepNo := s.stepNo + 1 }

/-- 60_exceptions.md R177 (spec decision D20): while load_error is 1 a Step reports LoadError and no state element changes, not
even `display_changed`; a Tick60 changes nothing. -/
def Obligations.LoadErrorBlocksTheMachine : Prop :=
  ∀ s : State, s.loadError = true →
    step s = .next { s with
      result := .loadError
      info := 0#16
      inputs := s.inputs.tail
      stepNo := s.stepNo + 1 } ∧
    tick60 s = s

/-- 93_implementation_defined.md: "Step is total (every state and every input gives exactly one outcome once FX0A_PICK is
fixed), Tick60 is total, Reset is total": no event ends in a stop. -/
def Obligations.EveryEventHasANextState : Prop :=
  (∀ s : State, ∃ t, step s = .next t) ∧ (∀ (e : Event) (s : State), ∃ t, runEvent e s = .next t)

/-- 40_cycle.md R91 (spec decision D21): after a Step not blocked by load_error the display flag is 1 exactly when the Step
executed a CLS or DRW and ended OK. -/
def Obligations.DisplayFlagTellsWhetherTheStepDrew : Prop :=
  ∀ s t : State, s.loadError = false → step s = .next t →
    (t.displayChanged = true ↔
      t.result = .ok ∧ (Fetches s .cls ∨ ∃ x y n, Fetches s (.drw x y n)))

/-- 40_cycle.md R96, 60_exceptions.md R180 (spec decision D23): a Step that ends in a fatal kind changes no state element but
`display_changed`, which is 0, besides the ticks taken before it and the spent inputs. -/
def Obligations.FatalStepIsPrecise : Prop :=
  ∀ s t : State, s.loadError = false → step s = .next t → t.result.fatal = true →
    t = { s with
      dt := countDown (stepInput s).ticks s.dt
      displayChanged := false
      result := t.result
      info := t.info
      inputs := s.inputs.tail
      stepNo := s.stepNo + 1 }

/-- 60_exceptions.md R181 (spec decision D26): once a Step has reported a fatal kind, whatever Steps and Tick60 events follow,
with whatever inputs, the core reports the same kind and info and nothing changes but DT, until Reset. -/
def Obligations.FatalReportRepeatsUntilReset : Prop :=
  ∀ s t : State, step s = .next t → t.result.fatal = true →
    ∀ es : List Event, (∀ rom, Event.reset rom ∉ es) →
      ∃ u, runEvents es t = .next u ∧
        u = { t with dt := u.dt, inputs := t.inputs, stepNo := u.stepNo } ∧ u.dt.toNat ≤ t.dt.toNat

/-- 60_exceptions.md R182: which instruction can end in which kind: every instruction OK, and only the seven listed a kind of
their own. -/
def Obligations.OnlyListedInstructionsRaise : Prop :=
  ∀ (i : Instr) (s t : State), exec i s = .next t → t.result ≠ .ok →
    (t.result = .stackUnderflow ∧ i = .ret) ∨
    (t.result = .stackOverflow ∧ ∃ nnn, i = .call nnn) ∨
    ((t.result = .outOfBounds ∨ t.result = .drawOutOfBounds) ∧ ∃ x y n, i = .drw x y n) ∨
    (t.result = .keyIndexOutOfRange ∧ ∃ x, i = .skp x ∨ i = .sknp x) ∨
    (t.result = .outOfBounds ∧ ∃ x, i = .ldB x ∨ i = .stRegs x ∨ i = .ldRegs x)

/-- 60_exceptions.md R170 (spec decision D25): the codes of `result[2:0]`, all different, and which kinds are fatal. -/
def Obligations.ResultCodesAreTheTable : Prop :=
  ([Result.ok, .unknownOpcode, .outOfBounds, .drawOutOfBounds, .stackOverflow, .stackUnderflow,
      .keyIndexOutOfRange, .loadError].map fun r => (r.code.toNat, r.fatal)) =
    [(0, false), (1, false), (2, true), (3, true), (4, true), (5, true), (6, true), (7, true)]

/-! ## Whole-machine rules -/

/-- 10_state.md R38 (access matrix, column "written by") over all instructions, and 00_scope.md R13. -/
def Obligations.OnlyListedInstructionsWriteEachElement : Prop :=
  ∀ (i : Instr) (s t : State), exec i s = .next t →
    (t.mem ≠ s.mem → ∃ x, i = .ldB x ∨ i = .stRegs x) ∧
    (t.fb ≠ s.fb → i = .cls ∨ ∃ x y n, i = .drw x y n) ∧
    (t.stack ≠ s.stack → ∃ nnn, i = .call nnn) ∧
    (t.sp ≠ s.sp → i = .ret ∨ ∃ nnn, i = .call nnn) ∧
    (t.dt ≠ s.dt → ∃ x, i = .ldDtVx x) ∧
    (t.i ≠ s.i → (∃ nnn, i = .ldI nnn) ∨ ∃ x, i = .addI x ∨ i = .ldF x) ∧
    t.loadError = s.loadError ∧ t.inputs = s.inputs ∧ t.stepNo = s.stepNo

/-- 10_state.md R21: VF changes only by the six flag-writing instructions or by an instruction that names it as its
destination. -/
def Obligations.OnlyFlagWritersOrDestinationsChangeVF : Prop :=
  ∀ (i : Instr) (s t : State), exec i s = .next t → t.v[15] ≠ s.v[15] →
    (∃ x y, i = .addReg x y ∨ i = .sub x y ∨ i = .shr x y ∨ i = .subn x y ∨ i = .shl x y) ∨
    (∃ x y n, i = .drw x y n) ∨
    (∃ kk, i = .ldImm regF kk ∨ i = .addImm regF kk ∨ i = .rnd regF kk) ∨
    (∃ y, i = .ldReg regF y ∨ i = .orReg regF y ∨ i = .andReg regF y ∨ i = .xorReg regF y) ∨
    i = .ldVxDt regF ∨ i = .ldVxK regF ∨ i = .ldRegs regF

/-- 10_state.md R38 (column "read by", rows rnd and key_held): an instruction other than CXKK does the same whatever the random
byte is, and one other than EX9E, EXA1, FX0A the same whatever the keys are. -/
def Obligations.InputsReachOnlyTheirReaders : Prop :=
  ∀ (i : Instr) (s : State) (a b : StepInput) (rest : List StepInput),
    ((∃ x kk, i = .rnd x kk) → a.rnd = b.rnd) →
    ((∃ x, i = .skp x ∨ i = .sknp x ∨ i = .ldVxK x) → a.keyHeld = b.keyHeld ∧ a.pick = b.pick) →
    ∃ t u, exec i { s with inputs := a :: rest } = .next t ∧ exec i { s with inputs := b :: rest } = .next u ∧
      u = { t with inputs := b :: rest }

/-- 60_exceptions.md R193: over one Step DT falls by the ticks that preceded it, never below 0, and is otherwise changed only by
an FX15. -/
def Obligations.DelayTimerFallsByTicksUnlessWritten : Prop :=
  ∀ s t : State, step s = .next t → s.loadError = false → (∀ x, ¬Fetches s (.ldDtVx x)) →
    t.dt.toNat = s.dt.toNat - (stepInput s).ticks

/-- 20_memory.md R63 (spec derivation): the word a store leaves at pc + 2 is what the very next Step fetches, for FX55 and for
FX33; the digit order of FX33 (44_index_memory.md R143) is the spec's decision D17, from general knowledge (log 12). -/
def Obligations.StoreIsSeenByTheNextFetch : Prop :=
  ∀ (s t : State) (x : Reg), Memory.wf s.mem → s.i.toNat = s.pc.toNat + 2 → step s = .next t →
    (Fetches s (.stRegs x) → 1 ≤ x.val → s.i.toNat + x.val ≤ 4095 →
      fetch t = .ok (wordOfBytes s.v[0] s.v[1])) ∧
    (Fetches s (.ldB x) → s.i.toNat + 2 ≤ 4095 → ∃ op, fetch t = .ok op ∧
      op.toNat = s.v[x.val].toNat / 100 * 256 + s.v[x.val].toNat / 10 % 10)

/-- 70_reset_and_hazards.md R200, 10_state.md R37, 20_memory.md R60 (spec decisions D2, D3, D20; log 6, 7, 9): every element
after the event Reset(rom), whatever came before. -/
def Obligations.ResetGivesEveryElementItsValue : Prop :=
  ∀ (rom : List Byte) (s : State), ∃ t, runEvent (.reset rom) s = .next t ∧
    (rom.length ≤ 3584 → t.loadError = false ∧
      ∀ a, memByte t.mem a = if 0x200 ≤ a then rom.getD (a - 0x200) 0#8 else 0#8) ∧
    (rom.length > 3584 → t.loadError = true ∧ ∀ a, memByte t.mem a = 0#8) ∧
    t.pc.toNat = 0x200 ∧ t.sp.val = 0 ∧ (∀ j : Fin 16, t.stack[j.val] = 0#16) ∧
    (∀ r : Reg, t.v[r.val] = 0#8) ∧ t.i = 0#16 ∧ t.dt = 0#8 ∧
    (∀ r < 32, ∀ c < 64, pixel t r c = false) ∧ t.displayChanged = false ∧
    t.result = .ok ∧ t.info = 0#16

/-! ## Invariants -/

/-- 70_reset_and_hazards.md R212, and the canonical form of memory: every Step, from every state that has them, keeps pc <=
0x10FE, every slot <= 0x0FFE, and memory canonical and inside 0..4095. -/
def Obligations.StepKeepsBounds : Prop :=
  ∀ s t : State, InBounds s → step s = .next t → InBounds t

/-- 70_reset_and_hazards.md R212: the bounds hold after Reset with any image. -/
def Obligations.BoundsHoldAfterReset : Prop :=
  InBounds State.reset ∧ ∀ rom, InBounds (resetRom rom)

/-- 70_reset_and_hazards.md R211: while the executed jumps and calls have even targets at or above 0x200, every Step keeps pc and
every slot in use even and at or above 0x200. -/
def Obligations.GoodTargetsKeepPcEvenAndHigh : Prop :=
  ∀ s t : State, InBounds s → EvenAndHigh s → (∀ i, Fetches s i → TargetIsGood s i) → step s = .next t →
    EvenAndHigh t

/-! ## Encoding (30_encoding.md) -/

/-- 30_encoding.md R70, R74, R75: decoding the bytes of any well-formed instruction, with any operands, gives it back and leaves
the bytes after it. -/
def Obligations.DecodeOfEncodeIsTheInstruction : Prop :=
  ∀ (i : Instr) (rest : List Byte), i.wellFormed = true →
    decode (encodeBytes i ++ rest) = .ok (i, rest)

/-- 30_encoding.md R74, R75: every word the decoder accepts is the encoding of what it gives, a well-formed instruction, and
matches that instruction's row of the opcode map. -/
def Obligations.EncodeOfDecodeIsTheWord : Prop :=
  ∀ (op : Word) (i : Instr), decodeWord op = some i →
    encode i = op ∧ i.wellFormed = true ∧ op &&& (opcodeRow i).1 = (opcodeRow i).2

/-- 30_encoding.md R75: every word that matches an instruction's row decodes to an instruction of that row, 00E0 and 00EE being
taken out of the row of 0NNN. -/
def Obligations.MatchingWordDecodesToItsRow : Prop :=
  ∀ (op : Word) (i : Instr), op &&& (opcodeRow i).1 = (opcodeRow i).2 →
    ((∃ nnn, i = .sys nnn) → op ≠ 0x00E0#16 ∧ op ≠ 0x00EE#16) →
    ∃ j, decodeWord op = some j ∧ opcodeRow j = opcodeRow i

/-- 30_encoding.md R76 (spec decision D12, 90_conflicts.md C3): the Unknown words are exactly those of the table. -/
def Obligations.UnknownWordsAreTheTable : Prop :=
  ∀ op : Word, decodeWord op = none ↔
    (op.toNat / 4096 = 5 ∧ op.toNat % 16 ≠ 0) ∨
    (op.toNat / 4096 = 8 ∧ op.toNat % 16 ∈ [8, 9, 0xA, 0xB, 0xC, 0xD, 0xF]) ∨
    (op.toNat / 4096 = 9 ∧ op.toNat % 16 ≠ 0) ∨
    (op.toNat / 4096 = 0xE ∧ op.toNat % 256 ∉ [0x9E, 0xA1]) ∨
    (op.toNat / 4096 = 0xF ∧ op.toNat % 256 ∉ [0x07, 0x0A, 0x15, 0x18, 0x1E, 0x29, 0x33, 0x55, 0x65])

/-- 30_encoding.md R71, R72: at least one word of each of the sixteen families, its fields written out from the formats, and the
Unknown word 5AB1, refused by the spec's decision D12 (log 16). -/
def Obligations.WordsOfEachFamilyDecode : Prop :=
  decodeWord 0x00E0#16 = some .cls ∧ decodeWord 0x00EE#16 = some .ret ∧
  decodeWord 0x00E1#16 = some (.sys 0x0E1#12) ∧ decodeWord 0x1ABC#16 = some (.jp 0xABC#12) ∧
  decodeWord 0x2ABC#16 = some (.call 0xABC#12) ∧ decodeWord 0x3A42#16 = some (.seImm 0xA 0x42#8) ∧
  decodeWord 0x4A42#16 = some (.sneImm 0xA 0x42#8) ∧
  decodeWord 0x5AB0#16 = some (.seReg 0xA 0xB) ∧ decodeWord 0x5AB1#16 = none ∧
  decodeWord 0x6A42#16 = some (.ldImm 0xA 0x42#8) ∧ decodeWord 0x7A42#16 = some (.addImm 0xA 0x42#8) ∧
  decodeWord 0x8AB7#16 = some (.subn 0xA 0xB) ∧ decodeWord 0x9AB0#16 = some (.sneReg 0xA 0xB) ∧
  decodeWord 0xA210#16 = some (.ldI 0x210#12) ∧ decodeWord 0xBABC#16 = some (.jpV0 0xABC#12) ∧
  decodeWord 0xC30F#16 = some (.rnd 3 0x0F#8) ∧ decodeWord 0xDAB5#16 = some (.drw 0xA 0xB 5) ∧
  decodeWord 0xEA9E#16 = some (.skp 0xA) ∧ decodeWord 0xFA65#16 = some (.ldRegs 0xA)
end

