-- ==== Sys2Proof/Laws/Decode.lean ====
section
/-! SUPPORT. The fields of a word and the words of the formats as numbers, so that decoding and encoding meet in Nat
arithmetic. -/

namespace Sys2Proof

theorem fieldF_toNat (op : Word) : (fieldF op).toNat = op.toNat / 4096 := by
  have := op.isLt
  simp only [fieldF, BitVec.extractLsb'_toNat, Nat.shiftRight_eq_div_pow]; omega

theorem fieldX_val (op : Word) : (fieldX op).val = op.toNat / 256 % 16 := by
  simp only [fieldX, BitVec.extractLsb'_toNat, Nat.shiftRight_eq_div_pow]

theorem fieldY_val (op : Word) : (fieldY op).val = op.toNat / 16 % 16 := by
  simp only [fieldY, BitVec.extractLsb'_toNat, Nat.shiftRight_eq_div_pow]

theorem fieldN_toNat (op : Word) : (fieldN op).toNat = op.toNat % 16 := by
  simp only [fieldN, BitVec.extractLsb'_toNat, Nat.shiftRight_zero]

theorem fieldHeight_val (op : Word) : (fieldHeight op).val = op.toNat % 16 := by
  simp only [fieldHeight, BitVec.extractLsb'_toNat, Nat.shiftRight_zero]

theorem fieldKK_toNat (op : Word) : (fieldKK op).toNat = op.toNat % 256 := by
  simp only [fieldKK, BitVec.extractLsb'_toNat, Nat.shiftRight_zero]

theorem fieldNNN_toNat (op : Word) : (fieldNNN op).toNat = op.toNat % 4096 := by
  simp only [fieldNNN, BitVec.extractLsb'_toNat, Nat.shiftRight_zero]

theorem hexWord_toNat {f x y n : Nat} (hf : f < 16) (hx : x < 16) (hy : y < 16) (hn : n < 16) :
    (hexWord f x y n).toNat = f * 4096 + x * 256 + y * 16 + n := by
  simp only [hexWord, BitVec.toNat_ofNat]; omega

theorem wordNNN_toNat {f : Nat} (hf : f < 16) (nnn : Imm12) : (wordNNN f nnn).toNat = f * 4096 + nnn.toNat := by
  have := nnn.isLt
  simp only [wordNNN, BitVec.toNat_ofNat]; omega

theorem wordXKK_toNat {f : Nat} (hf : f < 16) (x : Reg) (kk : Byte) :
    (wordXKK f x kk).toNat = f * 4096 + x.val * 256 + kk.toNat := by
  have := kk.isLt
  simp only [wordXKK, BitVec.toNat_ofNat]; omega

theorem highByte_toNat (op : Word) : (highByte op).toNat = op.toNat / 256 := by
  have := op.isLt
  simp only [highByte, BitVec.extractLsb'_toNat, Nat.shiftRight_eq_div_pow]; omega

theorem lowByte_toNat (op : Word) : (lowByte op).toNat = op.toNat % 256 := by
  simp only [lowByte, BitVec.extractLsb'_toNat, Nat.shiftRight_zero]

/-- Big-endian: the byte at the lower address is the more significant one (20_memory.md R53). -/
theorem wordOfBytes_toNat (hi lo : Byte) : (wordOfBytes hi lo).toNat = hi.toNat * 256 + lo.toNat := by
  have h := Nat.two_pow_add_eq_or_of_lt lo.isLt hi.toNat
  simp only [wordOfBytes, BitVec.toNat_append, Nat.shiftLeft_eq]
  rw [Nat.mul_comm, ← h]

/-- A word split into its bytes and put together again. -/
@[simp] theorem wordOfBytes_highByte_lowByte (op : Word) : wordOfBytes (highByte op) (lowByte op) = op := by
  apply BitVec.eq_of_toNat_eq
  rw [wordOfBytes_toNat, highByte_toNat, lowByte_toNat]; omega

/-- Decoding two bytes is decoding the word they make. -/
theorem decode_bytes (op : Word) (rest : List Byte) :
    decode (highByte op :: lowByte op :: rest) =
      match decodeWord op with
      | some i => .ok (i, rest)
      | none => .error (.unknownOpcode op) := by
  cases h : decodeWord op <;> simp only [decode, wordOfBytes_highByte_lowByte, h]

/-! ### Masks of the opcode map (30_encoding.md R75) -/

/-- The part of a word a mask keeps, as a number: the family nibble. -/
theorem mask_F000_toNat (op : Word) : (op &&& 0xF000#16).toNat = op.toNat / 4096 * 4096 := by
  have h : op &&& 0xF000#16 = fieldF op ++ 0#12 := by
    apply BitVec.eq_of_getLsbD_eq
    intro i hi
    rw [BitVec.getLsbD_and, BitVec.getLsbD_append]
    interval_cases i <;> simp [fieldF]
  rw [h, BitVec.toNat_append, fieldF_toNat, Nat.shiftLeft_eq]; simp

/-- The part of a word a mask keeps, as a number: the family nibble and the low nibble. -/
theorem mask_F00F_toNat (op : Word) : (op &&& 0xF00F#16).toNat = op.toNat / 4096 * 4096 + op.toNat % 16 := by
  have h : op &&& 0xF00F#16 = fieldF op ++ (0#8 ++ fieldN op) := by
    apply BitVec.eq_of_getLsbD_eq
    intro i hi
    rw [BitVec.getLsbD_and, BitVec.getLsbD_append, BitVec.getLsbD_append]
    interval_cases i <;> simp [fieldF, fieldN]
  have h2 := Nat.two_pow_add_eq_or_of_lt (i := 12) (b := op.toNat % 16) (by omega) (op.toNat / 4096)
  rw [h, BitVec.toNat_append, BitVec.toNat_append, fieldF_toNat, fieldN_toNat, Nat.shiftLeft_eq]
  simp only [BitVec.toNat_ofNat, Nat.zero_mod, Nat.zero_shiftLeft, Nat.zero_or]
  rw [Nat.mul_comm, ← h2, Nat.mul_comm]

/-- The part of a word a mask keeps, as a number: the family nibble and the low byte. -/
theorem mask_F0FF_toNat (op : Word) : (op &&& 0xF0FF#16).toNat = op.toNat / 4096 * 4096 + op.toNat % 256 := by
  have h : op &&& 0xF0FF#16 = fieldF op ++ (0#4 ++ fieldKK op) := by
    apply BitVec.eq_of_getLsbD_eq
    intro i hi
    rw [BitVec.getLsbD_and, BitVec.getLsbD_append, BitVec.getLsbD_append]
    interval_cases i <;> simp [fieldF, fieldKK]
  have h2 := Nat.two_pow_add_eq_or_of_lt (i := 12) (b := op.toNat % 256) (by omega) (op.toNat / 4096)
  rw [h, BitVec.toNat_append, BitVec.toNat_append, fieldF_toNat, fieldKK_toNat, Nat.shiftLeft_eq]
  simp only [BitVec.toNat_ofNat, Nat.zero_mod, Nat.zero_shiftLeft, Nat.zero_or]
  rw [Nat.mul_comm, ← h2, Nat.mul_comm]

end Sys2Proof
end

