-- ==== Sys2Proof/Laws/Memory.lean ====
section
/-! SUPPORT. Memory: every operation keeps the canonical form, and what a read sees after a write. -/

namespace Sys2Proof.Machine

/-- The addresses of a memory all lie above `a`. -/
abbrev AllAbove (a : Nat) (m : Memory) : Prop := ∀ c ∈ m, a < c.1

theorem memByte_of_allAbove {a : Nat} {m : Memory} (h : AllAbove a m) : memByte m a = unlistedByte := by
  induction m with
  | nil => rfl
  | cons c rest ih =>
    have hc : a < c.1 := h c (by simp)
    simp only [memByte]
    rw [if_neg (by omega)]
    exact ih fun d hd => h d (by simp [hd])

theorem memByte_consCell {a : Nat} {b : Byte} {m : Memory} (h : AllAbove a m) (x : Nat) :
    memByte (consCell a b m) x = if x = a then b else memByte m x := by
  unfold consCell
  by_cases hb : b = unlistedByte
  · rw [if_pos hb]
    split
    · next e => rw [e, hb]; exact memByte_of_allAbove h
    · rfl
  · rw [if_neg hb]
    simp only [memByte, eq_comm]

/-- A memory in canonical form, head first. -/
theorem Memory.wf_cons {c : Host.Cell} {m : Memory} :
    Memory.wf (c :: m) ↔ (AllAbove c.1 m ∧ c.2 ≠ 0#8 ∧ c.1 < Config.memSize) ∧ Memory.wf m := by
  simp only [Memory.wf, List.pairwise_cons, List.forall_mem_cons, AllAbove]
  tauto

theorem Memory.wf_consCell {a : Nat} {b : Byte} {m : Memory} (hm : Memory.wf m) (h : AllAbove a m)
    (ha : a < Config.memSize) : Memory.wf (consCell a b m) := by
  unfold consCell
  split
  · exact hm
  · next hb => exact Memory.wf_cons.mpr ⟨⟨h, hb, ha⟩, hm⟩

theorem allAbove_consCell {k a : Nat} {b : Byte} {m : Memory} (ha : k < a) (h : AllAbove k m) :
    AllAbove k (consCell a b m) := by
  unfold consCell
  split
  · exact h
  · intro c hc
    rcases List.mem_cons.mp hc with rfl | hc
    · exact ha
    · exact h c hc

theorem allAbove_insertCell {k a : Nat} {b : Byte} {m : Memory} (ha : k < a) (h : AllAbove k m) :
    AllAbove k (insertCell m a b) := by
  induction m with
  | nil => exact allAbove_consCell ha h
  | cons c rest ih =>
    have hr : AllAbove k rest := fun d hd => h d (by simp [hd])
    have hc : k < c.1 := h c (by simp)
    simp only [insertCell]
    split
    · exact allAbove_consCell ha h
    split
    · exact allAbove_consCell ha hr
    · intro d hd
      rcases List.mem_cons.mp hd with rfl | hd
      · exact hc
      · exact ih hr d hd

theorem AllAbove.trans {j k : Nat} {m : Memory} (h : AllAbove k m) (hjk : j ≤ k) : AllAbove j m :=
  fun c hc => Nat.lt_of_le_of_lt hjk (h c hc)

theorem Memory.wf_insertCell {a : Nat} {b : Byte} {m : Memory} (hm : Memory.wf m) (ha : a < Config.memSize) :
    Memory.wf (insertCell m a b) := by
  induction m with
  | nil => exact Memory.wf_consCell hm (by simp [AllAbove]) ha
  | cons c rest ih =>
    obtain ⟨⟨hab, hne, hlt⟩, hr⟩ := Memory.wf_cons.mp hm
    simp only [insertCell]
    split
    · next h =>
      refine Memory.wf_consCell hm ?_ ha
      intro d hd
      rcases List.mem_cons.mp hd with rfl | hd
      · exact h
      · exact Nat.lt_trans h (hab d hd)
    split
    · next h => exact Memory.wf_consCell hr (h ▸ hab) ha
    · next h1 h2 => exact Memory.wf_cons.mpr ⟨⟨allAbove_insertCell (by omega) hab, hne, hlt⟩, ih hr⟩

theorem memByte_insertCell {a : Nat} {b : Byte} {m : Memory} (hm : Memory.wf m) (x : Nat) :
    memByte (insertCell m a b) x = if x = a then b else memByte m x := by
  induction m with
  | nil => exact memByte_consCell (by simp [AllAbove]) x
  | cons c rest ih =>
    obtain ⟨⟨hab, -, -⟩, hr⟩ := Memory.wf_cons.mp hm
    simp only [insertCell]
    split
    · next h =>
      refine memByte_consCell ?_ x
      intro d hd
      rcases List.mem_cons.mp hd with rfl | hd
      · exact h
      · exact Nat.lt_trans h (hab d hd)
    split
    · next h =>
      rw [memByte_consCell (h ▸ hab)]
      simp only [memByte]
      split
      · rfl
      · rw [if_neg (by omega)]
    · next h1 h2 =>
      simp only [memByte, ih hr]
      split
      · rw [if_neg (by omega)]
      · rfl

/-- A store keeps the canonical form. -/
theorem Memory.wf_memSet {m : Memory} (hm : Memory.wf m) (a : Nat) (b : Byte) : Memory.wf (memSet m a b) := by
  unfold memSet
  split
  · next h => exact Memory.wf_insertCell hm h
  · exact hm

/-- A read after a store: the stored byte at its address, every other byte as before. -/
theorem memByte_memSet {m : Memory} (hm : Memory.wf m) {a : Nat} (ha : a < Config.memSize) (b : Byte) (x : Nat) :
    memByte (memSet m a b) x = if x = a then b else memByte m x := by
  rw [memSet, if_pos ha, memByte_insertCell hm]

/-- Storing bytes keeps the canonical form. -/
theorem Memory.wf_storeBytes {m : Memory} (hm : Memory.wf m) (a : Nat) (bs : List Byte) :
    Memory.wf (storeBytes m a bs) := by
  induction bs generalizing m a with
  | nil => exact hm
  | cons b rest ih => exact ih (Memory.wf_memSet hm a b) (a + 1)

/-- A read after storing bytes from `a`: the stored byte in their range, every other byte as before. -/
theorem memByte_storeBytes {m : Memory} (hm : Memory.wf m) (a : Nat) (bs : List Byte)
    (h : a + bs.length ≤ Config.memSize) (x : Nat) :
    memByte (storeBytes m a bs) x =
      if a ≤ x ∧ x < a + bs.length then bs.getD (x - a) 0#8 else memByte m x := by
  induction bs generalizing m a with
  | nil => simp [storeBytes]
  | cons b rest ih =>
    simp only [List.length_cons] at h ⊢
    simp only [storeBytes]
    rw [ih (Memory.wf_memSet hm a b) (a + 1) (by omega), memByte_memSet hm (by omega)]
    by_cases h1 : x = a
    · subst h1
      rw [if_neg (by omega), if_pos rfl, if_pos (by omega), Nat.sub_self]
      rfl
    · by_cases h2 : a + 1 ≤ x ∧ x < a + 1 + rest.length
      · rw [if_pos h2, if_pos (by omega)]
        obtain ⟨k, rfl⟩ : ∃ k, x = a + 1 + k := ⟨x - (a + 1), by omega⟩
        rw [show a + 1 + k - (a + 1) = k by omega, show a + 1 + k - a = k + 1 by omega]
        rfl
      · rw [if_neg h2, if_neg h1, if_neg (by omega)]

theorem allAbove_cellsFrom (a k : Nat) (bs : List Byte) (h : k < a) : AllAbove k (cellsFrom a bs) := by
  induction bs generalizing a with
  | nil => simp [cellsFrom, AllAbove]
  | cons b rest ih => exact allAbove_consCell h (ih (a + 1) (by omega))

/-- A loaded image is in canonical form (20_memory.md R60). -/
theorem Memory.wf_cellsFrom (a : Nat) (bs : List Byte) (h : a + bs.length ≤ Config.memSize) :
    Memory.wf (cellsFrom a bs) := by
  induction bs generalizing a with
  | nil => exact ⟨List.Pairwise.nil, by simp [cellsFrom]⟩
  | cons b rest ih =>
    simp only [List.length_cons] at h
    exact Memory.wf_consCell (ih (a + 1) (by omega)) (allAbove_cellsFrom _ _ _ (by omega)) (by omega)

/-- A read of a loaded image (20_memory.md R60). -/
theorem memByte_cellsFrom (a : Nat) (bs : List Byte) (x : Nat) :
    memByte (cellsFrom a bs) x = if a ≤ x then bs.getD (x - a) 0#8 else 0#8 := by
  induction bs generalizing a with
  | nil => simp [cellsFrom, memByte, unlistedByte]
  | cons b rest ih =>
    simp only [cellsFrom]
    rw [memByte_consCell (allAbove_cellsFrom _ _ _ (by omega)), ih]
    by_cases h1 : x = a
    · subst h1; simp
    · by_cases h2 : a + 1 ≤ x
      · rw [if_neg h1, if_pos h2, if_pos (by omega)]
        obtain ⟨k, rfl⟩ : ∃ k, x = a + 1 + k := ⟨x - (a + 1), by omega⟩
        rw [show a + 1 + k - (a + 1) = k by omega, show a + 1 + k - a = k + 1 by omega]
        rfl
      · rw [if_neg h1, if_neg h2, if_neg (by omega)]

/-- The memory of State.reset is in canonical form. -/
theorem reset_mem_wf : Memory.wf State.reset.mem := ⟨List.Pairwise.nil, by simp [State.reset]⟩

/-- The memory after Reset(rom) is in canonical form. -/
theorem resetRom_mem_wf (rom : List Byte) : Memory.wf (resetRom rom).mem := by
  unfold resetRom
  split
  · exact reset_mem_wf
  · next h => exact Memory.wf_cellsFrom _ _ (by simp only [Config.romMax, Config.romBase, Config.memSize] at *; omega)

/-- Memory is data: two memories in canonical form that read alike are equal. -/
theorem Memory.ext_of_wf {m n : Memory} (hm : Memory.wf m) (hn : Memory.wf n) (h : ∀ a, memByte m a = memByte n a) :
    m = n := by
  induction m generalizing n with
  | nil =>
    cases n with
    | nil => rfl
    | cons d n =>
      have := h d.1
      simp only [memByte, if_true] at this
      exact absurd this.symm (Memory.wf_cons.mp hn).1.2.1
  | cons c m ih =>
    obtain ⟨⟨hc, hc0, -⟩, hm'⟩ := Memory.wf_cons.mp hm
    cases n with
    | nil =>
      have := h c.1
      simp only [memByte, if_true] at this
      exact absurd this hc0
    | cons d n =>
      obtain ⟨⟨hd, hd0, -⟩, hn'⟩ := Memory.wf_cons.mp hn
      have key : c.1 = d.1 := by
        rcases Nat.lt_trichotomy c.1 d.1 with hlt | heq | hgt
        · have := h c.1
          simp only [memByte, if_true] at this
          rw [if_neg (by omega), memByte_of_allAbove (hd.trans (Nat.le_of_lt hlt))] at this
          exact absurd this hc0
        · exact heq
        · have := h d.1
          simp only [memByte, if_true] at this
          rw [if_neg (by omega), memByte_of_allAbove (hc.trans (Nat.le_of_lt hgt))] at this
          exact absurd this.symm hd0
      have hbyte : c.2 = d.2 := by
        have := h c.1
        simpa [memByte, key] using this
      have hrest : m = n := by
        refine ih hm' hn' fun a => ?_
        by_cases ha : a = c.1
        · rw [ha, memByte_of_allAbove hc, memByte_of_allAbove (key ▸ hd)]
        · have := h a
          simp only [memByte] at this
          rwa [if_neg (by omega), if_neg (by omega)] at this
      rw [hrest, show c = d from Prod.ext key hbyte]

/-! ### Ranges -/

/-- A checked range that raises nothing lies in memory. -/
theorem rangeFault_none {base len : Nat} (h : rangeFault base len = none) : len = 0 ∨ base + len ≤ Config.memSize := by
  unfold rangeFault at h
  split at h
  · cases h
  · simp only [Config.memSize] at *; omega

theorem length_readBytes (m : Memory) (base n : Nat) : (readBytes m base n).length = n := by
  induction n generalizing base with
  | zero => rfl
  | succ n ih => simp [readBytes, ih]

theorem getD_readBytes (m : Memory) (base n k : Nat) (h : k < n) :
    (readBytes m base n).getD k 0#8 = memByte m (base + k) := by
  induction n generalizing base k with
  | zero => omega
  | succ n ih =>
    cases k with
    | zero => rfl
    | succ k =>
      simp only [readBytes, List.getD_cons_succ]
      rw [ih (base + 1) k (by omega), show base + 1 + k = base + (k + 1) by omega]

/-- What FX65's loop leaves in each register. -/
theorem getElem_loadRegs (m : Memory) (base n : Nat) (v : Vector Byte 16) (r : Reg) :
    (loadRegs m base n v)[r.val] = if r.val < n then memByte m (base + r.val) else v[r.val] := by
  induction n with
  | zero => simp [loadRegs]
  | succ n ih =>
    simp only [loadRegs, Vector.getElem_setIfInBounds]
    by_cases h : n = r.val
    · subst h; simp
    · rw [if_neg h, ih]
      by_cases h2 : r.val < n
      · rw [if_pos h2, if_pos (by omega)]
      · rw [if_neg h2, if_neg (by omega)]

theorem length_regBytes (v : Vector Byte 16) (x : Reg) : (regBytes v x).length = x.val + 1 := by
  simp [regBytes]

theorem getD_regBytes (v : Vector Byte 16) (x r : Reg) (h : r.val ≤ x.val) :
    (regBytes v x).getD r.val 0#8 = v[r.val] := by
  have : r.val < x.val + 1 := by omega
  simp [regBytes, List.getD_eq_getElem?_getD, this]

end Sys2Proof.Machine
end

