-- ==== Sys2Proof/Laws/Display.lean ====
section
/-! SUPPORT. The blitter's loops as one formula: the frame buffer they leave and when they collide (45_display.md R153). -/

namespace Sys2Proof.Machine

/-- Two frame buffers with the same pixels are equal. -/
theorem frameBuffer_ext {a b : FrameBuffer} (h : ∀ r < 32, ∀ c < 64, fbPixel a r c = fbPixel b r c) : a = b := by
  apply Vector.ext
  intro r hr
  apply Vector.ext
  intro c hc
  have := h r hr c hc
  simpa [fbPixel, hr, hc] using this

@[simp] theorem fbPixel_blank (r c : Nat) : fbPixel blankFrameBuffer r c = false := by
  unfold fbPixel
  split
  · simp [blankFrameBuffer]
  · rfl

/-- Toggling one cell inverts it and leaves the others. -/
theorem fbPixel_fbToggle (fb : FrameBuffer) {r c : Nat} (hr : r < 32) (hc : c < 64) (r' c' : Nat) :
    fbPixel (fbToggle fb r c) r' c' = (fbPixel fb r' c' ^^ decide (r' = r ∧ c' = c)) := by
  unfold fbPixel
  by_cases h : r' < 32 ∧ c' < 64
  · rw [dif_pos h, dif_pos h]
    simp only [fbToggle, dif_pos (And.intro hr hc), Vector.getElem_set]
    by_cases h1 : r = r'
    · subst h1
      by_cases h2 : c = c'
      · subst h2; simp
      · simp [h2, Ne.symm h2]
    · simp [h1, Ne.symm h1]
  · rw [dif_neg h, dif_neg h]
    have : ¬(r' = r ∧ c' = c) := by rintro ⟨rfl, rfl⟩; exact h ⟨hr, hc⟩
    simp [this]

/-- The first `n` columns of a sprite row placed at row `r`, column `x`. -/
def placedRow (row : Byte) (r x n r' c' : Nat) : Bool :=
  decide (r' = r ∧ x ≤ c' ∧ c' < x + n) && row.getLsbD (7 - (c' - x))

theorem placedRow_succ (row : Byte) (r x n r' c' : Nat) :
    placedRow row r x (n + 1) r' c' =
      (placedRow row r x n r' c' ^^ (decide (r' = r ∧ c' = x + n) && row.getLsbD (7 - n))) := by
  unfold placedRow
  by_cases h : r' = r ∧ c' = x + n
  · obtain ⟨rfl, rfl⟩ := h
    simp
  · by_cases h2 : r' = r ∧ x ≤ c' ∧ c' < x + n
    · rw [decide_eq_true h2, decide_eq_false h, decide_eq_true (by omega)]; simp
    · rw [decide_eq_false h2, decide_eq_false h, decide_eq_false (by omega)]; simp

/-- One sprite row: the frame buffer after `n` columns. -/
theorem fbPixel_drawRowBits (row : Byte) {r x n : Nat} (hr : r < 32) (hx : x + n ≤ 64) (acc : Blit) (r' c' : Nat) :
    fbPixel (drawRowBits row r x n acc).1 r' c' = (fbPixel acc.1 r' c' ^^ placedRow row r x n r' c') := by
  induction n with
  | zero =>
    have : placedRow row r x 0 r' c' = false := by
      unfold placedRow; rw [decide_eq_false (by omega)]; rfl
    simp [drawRowBits, this]
  | succ n ih =>
    rw [placedRow_succ]
    simp only [drawRowBits, drawBit]
    cases hb : row.getLsbD (7 - n)
    · simp [ih (by omega)]
    · simp only [if_true]
      rw [fbPixel_fbToggle _ hr (by omega), ih (by omega)]
      simp

/-- One sprite row: it collides when one of its 1 bits meets a pixel that was set before it. -/
theorem collides_drawRowBits (row : Byte) {r x n : Nat} (hr : r < 32) (hx : x + n ≤ 64) (acc : Blit) :
    (drawRowBits row r x n acc).2 = true ↔
      acc.2 = true ∨ ∃ c < 64, placedRow row r x n r c = true ∧ fbPixel acc.1 r c = true := by
  induction n with
  | zero =>
    have : ∀ c, placedRow row r x 0 r c = false := by
      intro c; unfold placedRow; rw [decide_eq_false (by omega)]; rfl
    simp [drawRowBits, this]
  | succ n ih =>
    have hold : placedRow row r x n r (x + n) = false := by
      unfold placedRow; rw [decide_eq_false (by omega)]; rfl
    simp only [drawRowBits, drawBit]
    cases hb : row.getLsbD (7 - n)
    · simp only [Bool.false_eq_true, if_false]
      rw [ih (by omega)]
      simp only [placedRow_succ, hb, Bool.and_false, Bool.xor_false]
    · simp only [if_true, Bool.or_eq_true]
      rw [ih (by omega), fbPixel_drawRowBits row hr (by omega), hold, Bool.xor_false]
      constructor
      · rintro ((h | ⟨c, hc, h1, h2⟩) | h)
        · exact .inl h
        · refine .inr ⟨c, hc, ?_, h2⟩
          rw [placedRow_succ, h1]
          have : c ≠ x + n := by rintro rfl; rw [hold] at h1; cases h1
          simp [this]
        · exact .inr ⟨x + n, by omega, by simp [placedRow_succ, hold, hb], h⟩
      · rintro (h | ⟨c, hc, h1, h2⟩)
        · exact .inl (.inl h)
        · by_cases hcx : c = x + n
          · subst hcx; exact .inr h2
          · refine .inl (.inr ⟨c, hc, ?_, h2⟩)
            rw [placedRow_succ] at h1
            simpa [hcx] using h1

/-- Sprite rows `rows` placed from row `y` down at column `x`. -/
def placedRows (rows : List Byte) (x y r c : Nat) : Bool :=
  decide (y ≤ r ∧ r < y + rows.length ∧ x ≤ c ∧ c < x + 8) && (rows.getD (r - y) 0#8).getLsbD (7 - (c - x))

theorem placedRows_cons (row : Byte) (rest : List Byte) (x y r c : Nat) :
    placedRows (row :: rest) x y r c = (placedRow row y x 8 r c ^^ placedRows rest x (y + 1) r c) := by
  unfold placedRows placedRow
  by_cases h : r = y
  · subst h
    have h0 : ¬(r + 1 ≤ r ∧ r < r + 1 + rest.length ∧ x ≤ c ∧ c < x + 8) := by omega
    rw [decide_eq_false h0]
    by_cases hc : x ≤ c ∧ c < x + 8
    · simp [hc.1, hc.2]
    · have h1 : ¬(r = r ∧ x ≤ c ∧ c < x + 8) := fun h => hc h.2
      have h2 : ¬(r ≤ r ∧ r < r + (row :: rest).length ∧ x ≤ c ∧ c < x + 8) := fun h => hc h.2.2
      rw [decide_eq_false h1, decide_eq_false h2]; simp
  · rw [decide_eq_false (p := r = y ∧ _) (by omega)]
    by_cases hc : y + 1 ≤ r ∧ r < y + 1 + rest.length ∧ x ≤ c ∧ c < x + 8
    · rw [decide_eq_true hc, decide_eq_true (by simp only [List.length_cons]; omega)]
      obtain ⟨k, rfl⟩ : ∃ k, r = y + 1 + k := ⟨r - (y + 1), by omega⟩
      rw [show y + 1 + k - y = k + 1 by omega, show y + 1 + k - (y + 1) = k by omega]
      simp
    · rw [decide_eq_false hc, decide_eq_false (by simp only [List.length_cons]; omega)]; simp

/-- The whole sprite: FB' = FB xor S (45_display.md R153). -/
theorem fbPixel_drawRows {x : Nat} (hx : x + 8 ≤ 64) (rows : List Byte) {y : Nat} (hy : y + rows.length ≤ 32)
    (acc : Blit) (r c : Nat) :
    fbPixel (drawRows x rows y acc).1 r c = (fbPixel acc.1 r c ^^ placedRows rows x y r c) := by
  induction rows generalizing y acc with
  | nil =>
    have : placedRows [] x y r c = false := by
      unfold placedRows; rw [decide_eq_false (by simp only [List.length_nil]; omega)]; rfl
    simp [drawRows, this]
  | cons row rest ih =>
    simp only [List.length_cons] at hy
    simp only [drawRows]
    rw [ih (by omega), fbPixel_drawRowBits row (by omega) hx, placedRows_cons, Bool.xor_assoc]

/-- The whole sprite: it collides when one of its 1 bits meets a pixel that was set before the draw. -/
theorem collides_drawRows {x : Nat} (hx : x + 8 ≤ 64) (rows : List Byte) {y : Nat} (hy : y + rows.length ≤ 32)
    (acc : Blit) :
    (drawRows x rows y acc).2 = true ↔
      acc.2 = true ∨ ∃ r < 32, ∃ c < 64, placedRows rows x y r c = true ∧ fbPixel acc.1 r c = true := by
  induction rows generalizing y acc with
  | nil =>
    have : ∀ r c, placedRows [] x y r c = false := by
      intro r c; unfold placedRows; rw [decide_eq_false (by simp only [List.length_nil]; omega)]; rfl
    simp [drawRows, this]
  | cons row rest ih =>
    simp only [List.length_cons] at hy
    simp only [drawRows]
    rw [ih (by omega), collides_drawRowBits row (by omega) hx, or_assoc]
    have below : ∀ r c, placedRow row y x 8 r c = true → r = y := by
      intro r c h; simp only [placedRow, Bool.and_eq_true, decide_eq_true_eq] at h; exact h.1.1
    have above : ∀ r c, placedRows rest x (y + 1) r c = true → y < r := by
      intro r c h; simp only [placedRows, Bool.and_eq_true, decide_eq_true_eq] at h; omega
    refine or_congr_right ⟨?_, ?_⟩
    · rintro (⟨c, hc, h1, h2⟩ | ⟨r, hr, c, hc, h1, h2⟩)
      · refine ⟨y, by omega, c, hc, ?_, h2⟩
        have : placedRows rest x (y + 1) y c = false := by
          cases h : placedRows rest x (y + 1) y c with
          | false => rfl
          | true => exact absurd (above _ _ h) (by omega)
        rw [placedRows_cons, h1, this]; rfl
      · have h0 : placedRow row y x 8 r c = false := by
          cases h : placedRow row y x 8 r c with
          | false => rfl
          | true => exact absurd (below _ _ h) (by have := above _ _ h1; omega)
        refine ⟨r, hr, c, hc, by rw [placedRows_cons, h1, h0]; rfl, ?_⟩
        rwa [fbPixel_drawRowBits row (by omega) hx, h0, Bool.xor_false] at h2
    · rintro ⟨r, hr, c, hc, h1, h2⟩
      rw [placedRows_cons] at h1
      cases h0 : placedRow row y x 8 r c with
      | true => exact .inl ⟨c, hc, by rw [below _ _ h0] at h0; exact h0, by rw [below _ _ h0] at h2; exact h2⟩
      | false =>
        rw [h0, Bool.false_xor] at h1
        exact .inr ⟨r, hr, c, hc, h1, by rw [fbPixel_drawRowBits row (by omega) hx, h0, Bool.xor_false]; exact h2⟩

end Sys2Proof.Machine
end

