-- ==== Sys2Proof/Laws/State.lean ====
section
/-! SUPPORT. One lemma per field per named update of State, and how reads see writes. -/

namespace Sys2Proof.Machine

/-! ### writeV -/

@[simp] theorem writeV_v (x : Reg) (b : Byte) (s : State) : (writeV x b s).v = s.v.set x.val b := rfl
@[simp] theorem writeV_i (x : Reg) (b : Byte) (s : State) : (writeV x b s).i = s.i := rfl
@[simp] theorem writeV_pc (x : Reg) (b : Byte) (s : State) : (writeV x b s).pc = s.pc := rfl
@[simp] theorem writeV_stack (x : Reg) (b : Byte) (s : State) : (writeV x b s).stack = s.stack := rfl
@[simp] theorem writeV_sp (x : Reg) (b : Byte) (s : State) : (writeV x b s).sp = s.sp := rfl
@[simp] theorem writeV_dt (x : Reg) (b : Byte) (s : State) : (writeV x b s).dt = s.dt := rfl
@[simp] theorem writeV_fb (x : Reg) (b : Byte) (s : State) : (writeV x b s).fb = s.fb := rfl
@[simp] theorem writeV_displayChanged (x : Reg) (b : Byte) (s : State) : (writeV x b s).displayChanged = s.displayChanged := rfl
@[simp] theorem writeV_mem (x : Reg) (b : Byte) (s : State) : (writeV x b s).mem = s.mem := rfl
@[simp] theorem writeV_loadError (x : Reg) (b : Byte) (s : State) : (writeV x b s).loadError = s.loadError := rfl
@[simp] theorem writeV_result (x : Reg) (b : Byte) (s : State) : (writeV x b s).result = s.result := rfl
@[simp] theorem writeV_info (x : Reg) (b : Byte) (s : State) : (writeV x b s).info = s.info := rfl
@[simp] theorem writeV_inputs (x : Reg) (b : Byte) (s : State) : (writeV x b s).inputs = s.inputs := rfl
@[simp] theorem writeV_stepNo (x : Reg) (b : Byte) (s : State) : (writeV x b s).stepNo = s.stepNo := rfl

/-! ### writeI -/

@[simp] theorem writeI_v (w : Word) (s : State) : (writeI w s).v = s.v := rfl
@[simp] theorem writeI_i (w : Word) (s : State) : (writeI w s).i = w := rfl
@[simp] theorem writeI_pc (w : Word) (s : State) : (writeI w s).pc = s.pc := rfl
@[simp] theorem writeI_stack (w : Word) (s : State) : (writeI w s).stack = s.stack := rfl
@[simp] theorem writeI_sp (w : Word) (s : State) : (writeI w s).sp = s.sp := rfl
@[simp] theorem writeI_dt (w : Word) (s : State) : (writeI w s).dt = s.dt := rfl
@[simp] theorem writeI_fb (w : Word) (s : State) : (writeI w s).fb = s.fb := rfl
@[simp] theorem writeI_displayChanged (w : Word) (s : State) : (writeI w s).displayChanged = s.displayChanged := rfl
@[simp] theorem writeI_mem (w : Word) (s : State) : (writeI w s).mem = s.mem := rfl
@[simp] theorem writeI_loadError (w : Word) (s : State) : (writeI w s).loadError = s.loadError := rfl
@[simp] theorem writeI_result (w : Word) (s : State) : (writeI w s).result = s.result := rfl
@[simp] theorem writeI_info (w : Word) (s : State) : (writeI w s).info = s.info := rfl
@[simp] theorem writeI_inputs (w : Word) (s : State) : (writeI w s).inputs = s.inputs := rfl
@[simp] theorem writeI_stepNo (w : Word) (s : State) : (writeI w s).stepNo = s.stepNo := rfl

/-! ### writeDt -/

@[simp] theorem writeDt_v (b : Byte) (s : State) : (writeDt b s).v = s.v := rfl
@[simp] theorem writeDt_i (b : Byte) (s : State) : (writeDt b s).i = s.i := rfl
@[simp] theorem writeDt_pc (b : Byte) (s : State) : (writeDt b s).pc = s.pc := rfl
@[simp] theorem writeDt_stack (b : Byte) (s : State) : (writeDt b s).stack = s.stack := rfl
@[simp] theorem writeDt_sp (b : Byte) (s : State) : (writeDt b s).sp = s.sp := rfl
@[simp] theorem writeDt_dt (b : Byte) (s : State) : (writeDt b s).dt = b := rfl
@[simp] theorem writeDt_fb (b : Byte) (s : State) : (writeDt b s).fb = s.fb := rfl
@[simp] theorem writeDt_displayChanged (b : Byte) (s : State) : (writeDt b s).displayChanged = s.displayChanged := rfl
@[simp] theorem writeDt_mem (b : Byte) (s : State) : (writeDt b s).mem = s.mem := rfl
@[simp] theorem writeDt_loadError (b : Byte) (s : State) : (writeDt b s).loadError = s.loadError := rfl
@[simp] theorem writeDt_result (b : Byte) (s : State) : (writeDt b s).result = s.result := rfl
@[simp] theorem writeDt_info (b : Byte) (s : State) : (writeDt b s).info = s.info := rfl
@[simp] theorem writeDt_inputs (b : Byte) (s : State) : (writeDt b s).inputs = s.inputs := rfl
@[simp] theorem writeDt_stepNo (b : Byte) (s : State) : (writeDt b s).stepNo = s.stepNo := rfl

/-! ### writePc -/

@[simp] theorem writePc_v (w : Word) (s : State) : (writePc w s).v = s.v := rfl
@[simp] theorem writePc_i (w : Word) (s : State) : (writePc w s).i = s.i := rfl
@[simp] theorem writePc_pc (w : Word) (s : State) : (writePc w s).pc = w := rfl
@[simp] theorem writePc_stack (w : Word) (s : State) : (writePc w s).stack = s.stack := rfl
@[simp] theorem writePc_sp (w : Word) (s : State) : (writePc w s).sp = s.sp := rfl
@[simp] theorem writePc_dt (w : Word) (s : State) : (writePc w s).dt = s.dt := rfl
@[simp] theorem writePc_fb (w : Word) (s : State) : (writePc w s).fb = s.fb := rfl
@[simp] theorem writePc_displayChanged (w : Word) (s : State) : (writePc w s).displayChanged = s.displayChanged := rfl
@[simp] theorem writePc_mem (w : Word) (s : State) : (writePc w s).mem = s.mem := rfl
@[simp] theorem writePc_loadError (w : Word) (s : State) : (writePc w s).loadError = s.loadError := rfl
@[simp] theorem writePc_result (w : Word) (s : State) : (writePc w s).result = s.result := rfl
@[simp] theorem writePc_info (w : Word) (s : State) : (writePc w s).info = s.info := rfl
@[simp] theorem writePc_inputs (w : Word) (s : State) : (writePc w s).inputs = s.inputs := rfl
@[simp] theorem writePc_stepNo (w : Word) (s : State) : (writePc w s).stepNo = s.stepNo := rfl

/-! ### advance -/

@[simp] theorem advance_v (s : State) : (advance s).v = s.v := rfl
@[simp] theorem advance_i (s : State) : (advance s).i = s.i := rfl
@[simp] theorem advance_pc (s : State) : (advance s).pc = s.pc + 2#16 := rfl
@[simp] theorem advance_stack (s : State) : (advance s).stack = s.stack := rfl
@[simp] theorem advance_sp (s : State) : (advance s).sp = s.sp := rfl
@[simp] theorem advance_dt (s : State) : (advance s).dt = s.dt := rfl
@[simp] theorem advance_fb (s : State) : (advance s).fb = s.fb := rfl
@[simp] theorem advance_displayChanged (s : State) : (advance s).displayChanged = s.displayChanged := rfl
@[simp] theorem advance_mem (s : State) : (advance s).mem = s.mem := rfl
@[simp] theorem advance_loadError (s : State) : (advance s).loadError = s.loadError := rfl
@[simp] theorem advance_result (s : State) : (advance s).result = s.result := rfl
@[simp] theorem advance_info (s : State) : (advance s).info = s.info := rfl
@[simp] theorem advance_inputs (s : State) : (advance s).inputs = s.inputs := rfl
@[simp] theorem advance_stepNo (s : State) : (advance s).stepNo = s.stepNo := rfl

/-! ### skipIf -/

@[simp] theorem skipIf_v (c : Bool) (s : State) : (skipIf c s).v = s.v := rfl
@[simp] theorem skipIf_i (c : Bool) (s : State) : (skipIf c s).i = s.i := rfl
@[simp] theorem skipIf_pc (c : Bool) (s : State) : (skipIf c s).pc = if c then s.pc + 4#16 else s.pc + 2#16 := rfl
@[simp] theorem skipIf_stack (c : Bool) (s : State) : (skipIf c s).stack = s.stack := rfl
@[simp] theorem skipIf_sp (c : Bool) (s : State) : (skipIf c s).sp = s.sp := rfl
@[simp] theorem skipIf_dt (c : Bool) (s : State) : (skipIf c s).dt = s.dt := rfl
@[simp] theorem skipIf_fb (c : Bool) (s : State) : (skipIf c s).fb = s.fb := rfl
@[simp] theorem skipIf_displayChanged (c : Bool) (s : State) : (skipIf c s).displayChanged = s.displayChanged := rfl
@[simp] theorem skipIf_mem (c : Bool) (s : State) : (skipIf c s).mem = s.mem := rfl
@[simp] theorem skipIf_loadError (c : Bool) (s : State) : (skipIf c s).loadError = s.loadError := rfl
@[simp] theorem skipIf_result (c : Bool) (s : State) : (skipIf c s).result = s.result := rfl
@[simp] theorem skipIf_info (c : Bool) (s : State) : (skipIf c s).info = s.info := rfl
@[simp] theorem skipIf_inputs (c : Bool) (s : State) : (skipIf c s).inputs = s.inputs := rfl
@[simp] theorem skipIf_stepNo (c : Bool) (s : State) : (skipIf c s).stepNo = s.stepNo := rfl

/-! ### showFrame -/

@[simp] theorem showFrame_v (fb : FrameBuffer) (s : State) : (showFrame fb s).v = s.v := rfl
@[simp] theorem showFrame_i (fb : FrameBuffer) (s : State) : (showFrame fb s).i = s.i := rfl
@[simp] theorem showFrame_pc (fb : FrameBuffer) (s : State) : (showFrame fb s).pc = s.pc := rfl
@[simp] theorem showFrame_stack (fb : FrameBuffer) (s : State) : (showFrame fb s).stack = s.stack := rfl
@[simp] theorem showFrame_sp (fb : FrameBuffer) (s : State) : (showFrame fb s).sp = s.sp := rfl
@[simp] theorem showFrame_dt (fb : FrameBuffer) (s : State) : (showFrame fb s).dt = s.dt := rfl
@[simp] theorem showFrame_fb (fb : FrameBuffer) (s : State) : (showFrame fb s).fb = fb := rfl
@[simp] theorem showFrame_displayChanged (fb : FrameBuffer) (s : State) : (showFrame fb s).displayChanged = true := rfl
@[simp] theorem showFrame_mem (fb : FrameBuffer) (s : State) : (showFrame fb s).mem = s.mem := rfl
@[simp] theorem showFrame_loadError (fb : FrameBuffer) (s : State) : (showFrame fb s).loadError = s.loadError := rfl
@[simp] theorem showFrame_result (fb : FrameBuffer) (s : State) : (showFrame fb s).result = s.result := rfl
@[simp] theorem showFrame_info (fb : FrameBuffer) (s : State) : (showFrame fb s).info = s.info := rfl
@[simp] theorem showFrame_inputs (fb : FrameBuffer) (s : State) : (showFrame fb s).inputs = s.inputs := rfl
@[simp] theorem showFrame_stepNo (fb : FrameBuffer) (s : State) : (showFrame fb s).stepNo = s.stepNo := rfl

/-! ### consumeInput -/

@[simp] theorem consumeInput_v (s : State) : (consumeInput s).v = s.v := rfl
@[simp] theorem consumeInput_i (s : State) : (consumeInput s).i = s.i := rfl
@[simp] theorem consumeInput_pc (s : State) : (consumeInput s).pc = s.pc := rfl
@[simp] theorem consumeInput_stack (s : State) : (consumeInput s).stack = s.stack := rfl
@[simp] theorem consumeInput_sp (s : State) : (consumeInput s).sp = s.sp := rfl
@[simp] theorem consumeInput_dt (s : State) : (consumeInput s).dt = s.dt := rfl
@[simp] theorem consumeInput_fb (s : State) : (consumeInput s).fb = s.fb := rfl
@[simp] theorem consumeInput_displayChanged (s : State) : (consumeInput s).displayChanged = s.displayChanged := rfl
@[simp] theorem consumeInput_mem (s : State) : (consumeInput s).mem = s.mem := rfl
@[simp] theorem consumeInput_loadError (s : State) : (consumeInput s).loadError = s.loadError := rfl
@[simp] theorem consumeInput_result (s : State) : (consumeInput s).result = s.result := rfl
@[simp] theorem consumeInput_info (s : State) : (consumeInput s).info = s.info := rfl
@[simp] theorem consumeInput_inputs (s : State) : (consumeInput s).inputs = s.inputs.tail := rfl
@[simp] theorem consumeInput_stepNo (s : State) : (consumeInput s).stepNo = s.stepNo + 1 := rfl

/-! ### tickMany -/

@[simp] theorem tickMany_v (n : Nat) (s : State) : (tickMany n s).v = s.v := rfl
@[simp] theorem tickMany_i (n : Nat) (s : State) : (tickMany n s).i = s.i := rfl
@[simp] theorem tickMany_pc (n : Nat) (s : State) : (tickMany n s).pc = s.pc := rfl
@[simp] theorem tickMany_stack (n : Nat) (s : State) : (tickMany n s).stack = s.stack := rfl
@[simp] theorem tickMany_sp (n : Nat) (s : State) : (tickMany n s).sp = s.sp := rfl
@[simp] theorem tickMany_dt (n : Nat) (s : State) : (tickMany n s).dt = if s.loadError then s.dt else countDown n s.dt := rfl
@[simp] theorem tickMany_fb (n : Nat) (s : State) : (tickMany n s).fb = s.fb := rfl
@[simp] theorem tickMany_displayChanged (n : Nat) (s : State) : (tickMany n s).displayChanged = s.displayChanged := rfl
@[simp] theorem tickMany_mem (n : Nat) (s : State) : (tickMany n s).mem = s.mem := rfl
@[simp] theorem tickMany_loadError (n : Nat) (s : State) : (tickMany n s).loadError = s.loadError := rfl
@[simp] theorem tickMany_result (n : Nat) (s : State) : (tickMany n s).result = s.result := rfl
@[simp] theorem tickMany_info (n : Nat) (s : State) : (tickMany n s).info = s.info := rfl
@[simp] theorem tickMany_inputs (n : Nat) (s : State) : (tickMany n s).inputs = s.inputs := rfl
@[simp] theorem tickMany_stepNo (n : Nat) (s : State) : (tickMany n s).stepNo = s.stepNo := rfl

/-! ### beginStep -/

@[simp] theorem beginStep_v (s : State) : (beginStep s).v = s.v := rfl
@[simp] theorem beginStep_i (s : State) : (beginStep s).i = s.i := rfl
@[simp] theorem beginStep_pc (s : State) : (beginStep s).pc = s.pc := rfl
@[simp] theorem beginStep_stack (s : State) : (beginStep s).stack = s.stack := rfl
@[simp] theorem beginStep_sp (s : State) : (beginStep s).sp = s.sp := rfl
@[simp] theorem beginStep_dt (s : State) : (beginStep s).dt = if s.loadError then s.dt else countDown (stepInput s).ticks s.dt := rfl
@[simp] theorem beginStep_fb (s : State) : (beginStep s).fb = s.fb := rfl
@[simp] theorem beginStep_displayChanged (s : State) : (beginStep s).displayChanged = false := rfl
@[simp] theorem beginStep_mem (s : State) : (beginStep s).mem = s.mem := rfl
@[simp] theorem beginStep_loadError (s : State) : (beginStep s).loadError = s.loadError := rfl
@[simp] theorem beginStep_result (s : State) : (beginStep s).result = s.result := rfl
@[simp] theorem beginStep_info (s : State) : (beginStep s).info = s.info := rfl
@[simp] theorem beginStep_inputs (s : State) : (beginStep s).inputs = s.inputs := rfl
@[simp] theorem beginStep_stepNo (s : State) : (beginStep s).stepNo = s.stepNo := rfl

/-! ### Registers -/

@[simp] theorem readV_def (s : State) (x : Reg) : readV s x = s.v[x.val] := rfl

theorem writeV_same (x : Reg) (b : Byte) (s : State) : (writeV x b s).v[x.val] = b := by simp

theorem writeV_other (x r : Reg) (b : Byte) (s : State) (h : r ≠ x) : (writeV x b s).v[r.val] = s.v[r.val] := by
  have : x.val ≠ r.val := fun e => h (Fin.ext e.symm)
  simp [this]

theorem getElem_writeV (x r : Reg) (b : Byte) (s : State) :
    (writeV x b s).v[r.val] = if r = x then b else s.v[r.val] := by
  by_cases h : r = x
  · subst h; simp
  · simp only [h, if_false]; exact writeV_other x r b s h

/-- A flag-writing instruction leaves its result in V[x], the flag in VF when x is not VF, every other register as it was. -/
theorem getElem_flagThenResult (x r : Reg) (flag : Byte) (res : State → Byte) (s : State) :
    (flagThenResult x flag res s).v[r.val] =
      if r = x then res (writeV regF flag s) else if r = regF then flag else s.v[r.val] := by
  unfold flagThenResult
  rw [getElem_writeV, getElem_writeV]

/-- A flag-writing instruction changes the V registers only. -/
theorem flagThenResult_eq (x : Reg) (flag : Byte) (res : State → Byte) (s : State) :
    flagThenResult x flag res s = { s with v := (flagThenResult x flag res s).v } := rfl

/-! ### The Step's inputs are not touched by a change of another field -/

theorem stepInput_congr {s t : State} (hi : t.inputs = s.inputs) (hn : t.stepNo = s.stepNo) :
    stepInput t = stepInput s := by
  unfold stepInput; rw [hi, hn]

@[simp] theorem stepInput_beginStep (s : State) : stepInput (beginStep s) = stepInput s :=
  stepInput_congr rfl rfl

@[simp] theorem stepInput_cons (s : State) (input : StepInput) (rest : List StepInput) :
    stepInput { s with inputs := input :: rest } = input := rfl

/-! ### Endings: every report is a next state -/

/-- All a report does. -/
theorem report_eq (r : Result) (info : Word) (s : State) :
    report r info s = .next { s with result := r, info := info } := rfl

/-- All an OK ending does. -/
theorem complete_eq (s : State) : complete s = .next { s with result := .ok, info := 0#16 } := rfl

/-- All taking an error does (40_cycle.md R96). -/
theorem raiseFault_eq (f : Fault) (s : State) :
    raiseFault f s = .next { s with displayChanged := false, result := f.kind, info := f.info } := rfl

@[simp] theorem complete_next_iff (s t : State) :
    complete s = .next t ↔ t = { s with result := .ok, info := 0#16 } := by
  rw [complete_eq]; constructor
  · intro h; cases h; rfl
  · intro h; rw [h]

@[simp] theorem raiseFault_next_iff (f : Fault) (s t : State) :
    raiseFault f s = .next t ↔ t = { s with displayChanged := false, result := f.kind, info := f.info } := by
  rw [raiseFault_eq]; constructor
  · intro h; cases h; rfl
  · intro h; rw [h]

/-! ### The stack -/

theorem pushStack_of_lt (w : Word) (s : State) (h : s.sp.val < 16) :
    pushStack w s = some { s with stack := s.stack.set s.sp.val w, sp := ⟨s.sp.val + 1, by omega⟩ } := by
  simp [pushStack, h]

theorem pushStack_full (w : Word) (s : State) (h : s.sp.val = 16) : pushStack w s = none := by
  simp [pushStack, h]

theorem popStack_of_pos (s : State) (h : 0 < s.sp.val) :
    popStack s = some (s.stack[s.sp.val - 1]'(by omega), { s with sp := ⟨s.sp.val - 1, by omega⟩ }) := by
  simp [popStack, h]

theorem popStack_empty (s : State) (h : s.sp.val = 0) : popStack s = none := by
  simp [popStack, h]

end Sys2Proof.Machine
end

