-- ==== Sys2Proof/Laws/Machine.lean ====
section
/-! SUPPORT. What the shared operations, an instruction and a Step can do, said once. -/

namespace Sys2Proof.Machine

/-! ### Shared operations -/

/-- All FX33 and FX55 can do: raise OutOfBounds, or store their bytes from I up and advance. -/
theorem storeAtI_cases (bs : List Byte) (s : State) :
    (∃ f, rangeFault s.i.toNat bs.length = some f ∧ storeAtI bs s = raiseFault f s) ∨
    (rangeFault s.i.toNat bs.length = none ∧
      storeAtI bs s = complete (advance { s with mem := storeBytes s.mem s.i.toNat bs })) := by
  unfold storeAtI
  cases h : rangeFault s.i.toNat bs.length with
  | some f => exact .inl ⟨f, rfl, rfl⟩
  | none => exact .inr ⟨rfl, rfl⟩

/-- All DXYN can do: raise one of its two kinds, or draw. -/
theorem execDrw_cases (x y : Reg) (n : Height) (s : State) :
    (∃ f, rangeFault s.i.toNat n.val = some f ∧ execDrw x y n s = raiseFault f s) ∨
    (rangeFault s.i.toNat n.val = none ∧
      ∃ f, footprintFault (readV s x) (readV s y) n.val = some f ∧ execDrw x y n s = raiseFault f s) ∨
    (rangeFault s.i.toNat n.val = none ∧ footprintFault (readV s x) (readV s y) n.val = none ∧
      execDrw x y n s = complete (advance (writeV regF (flagByte (blitSprite x y n s).2)
        (showFrame (blitSprite x y n s).1 s)))) := by
  unfold execDrw
  cases h : rangeFault s.i.toNat n.val with
  | some f => exact .inl ⟨f, rfl, rfl⟩
  | none =>
    cases h2 : footprintFault (readV s x) (readV s y) n.val with
    | some f => exact .inr (.inl ⟨rfl, f, rfl, rfl⟩)
    | none => exact .inr (.inr ⟨rfl, rfl, rfl⟩)

/-- A range that does not lie in memory raises OutOfBounds with its lowest address above 4095. -/
theorem rangeFault_some {base len : Nat} (h0 : 0 < len) (h : base + len - 1 > 4095) :
    rangeFault base len = some (.outOfBounds (BitVec.ofNat 16 (max base 4096))) := by
  rw [rangeFault, if_pos ⟨h0, h⟩]

theorem rangeFault_ok {base len : Nat} (h : len = 0 ∨ base + len - 1 ≤ 4095) : rangeFault base len = none := by
  rw [rangeFault, if_neg (by omega)]

/-- A range raises nothing but OutOfBounds. -/
theorem rangeFault_kind {base len : Nat} {f : Fault} (h : rangeFault base len = some f) : f.kind = .outOfBounds := by
  unfold rangeFault at h
  split at h
  · cases h; rfl
  · cases h

theorem footprintFault_kind {x y : Byte} {n : Nat} {f : Fault} (h : footprintFault x y n = some f) :
    f.kind = .drawOutOfBounds := by
  unfold footprintFault at h
  split at h
  · cases h; rfl
  · cases h

theorem keyFault_kind {k : Byte} {f : Fault} (h : keyFault k = some f) : f.kind = .keyIndexOutOfRange := by
  unfold keyFault at h
  split at h
  · cases h; rfl
  · cases h

/-- Every kind a raise reports is fatal. -/
theorem Fault.kind_fatal (f : Fault) : f.kind.fatal = true := by cases f <;> rfl

theorem Fault.kind_ne_ok (f : Fault) : f.kind ≠ .ok := by cases f <;> simp [Fault.kind]

theorem Fault.kind_ne_unknownOpcode (f : Fault) : f.kind ≠ .unknownOpcode := by cases f <;> simp [Fault.kind]

/-! ### Instructions, in the case where they raise nothing -/

theorem execRet_of_pos (s : State) (h : 0 < s.sp.val) :
    execRet s = complete (writePc ((s.stack[s.sp.val - 1]'(by omega)) + 2#16)
      { s with sp := ⟨s.sp.val - 1, by omega⟩ }) := by
  simp only [execRet, popStack_of_pos s h]

theorem execRet_empty (s : State) (h : s.sp.val = 0) : execRet s = raiseFault .stackUnderflow s := by
  simp only [execRet, popStack_empty s h]

theorem execCall_of_lt (nnn : Imm12) (s : State) (h : s.sp.val < 16) :
    execCall nnn s = complete (writePc (immWord nnn)
      { s with stack := s.stack.set s.sp.val s.pc, sp := ⟨s.sp.val + 1, by omega⟩ }) := by
  simp only [execCall, pushStack_of_lt s.pc s h]

theorem execCall_full (nnn : Imm12) (s : State) (h : s.sp.val = 16) :
    execCall nnn s = raiseFault .stackOverflow s := by
  simp only [execCall, pushStack_full s.pc s h]

theorem execLdRegs_ok (x : Reg) (s : State) (h : rangeFault s.i.toNat (x.val + 1) = none) :
    execLdRegs x s = complete (advance { s with v := loadRegs s.mem s.i.toNat (x.val + 1) s.v }) := by
  simp only [execLdRegs, h]

theorem execLdRegs_raises (x : Reg) (s : State) {f : Fault} (h : rangeFault s.i.toNat (x.val + 1) = some f) :
    execLdRegs x s = raiseFault f s := by
  simp only [execLdRegs, h]

theorem execSkp_ok (x : Reg) (s : State) (h : keyFault (readV s x) = none) :
    execSkp x s = complete (skipIf (keyHeld s (readV s x).toNat) s) := by
  simp only [execSkp, h]

theorem execSkp_raises (x : Reg) (s : State) {f : Fault} (h : keyFault (readV s x) = some f) :
    execSkp x s = raiseFault f s := by
  simp only [execSkp, h]

theorem execSknp_ok (x : Reg) (s : State) (h : keyFault (readV s x) = none) :
    execSknp x s = complete (skipIf (!keyHeld s (readV s x).toNat) s) := by
  simp only [execSknp, h]

theorem execSknp_raises (x : Reg) (s : State) {f : Fault} (h : keyFault (readV s x) = some f) :
    execSknp x s = raiseFault f s := by
  simp only [execSknp, h]

/-! ### Instructions -/

/-- An instruction either raises, or ends OK in a state reached by its own writes: it never stops, and it touches neither the
inputs nor load_error. -/
theorem exec_ends (i : Instr) (s : State) :
    (∃ f, exec i s = raiseFault f s) ∨
    (∃ t, exec i s = complete t ∧ t.inputs = s.inputs ∧ t.stepNo = s.stepNo ∧ t.loadError = s.loadError) := by
  cases i
  case ret =>
    by_cases h : 0 < s.sp.val
    · exact .inr ⟨_, execRet_of_pos s h, rfl, rfl, rfl⟩
    · exact .inl ⟨_, execRet_empty s (by omega)⟩
  case call nnn =>
    by_cases h : s.sp.val < 16
    · exact .inr ⟨_, execCall_of_lt nnn s h, rfl, rfl, rfl⟩
    · exact .inl ⟨_, execCall_full nnn s (by omega)⟩
  case drw x y n =>
    rcases execDrw_cases x y n s with ⟨f, -, h⟩ | ⟨-, f, -, h⟩ | ⟨-, -, h⟩
    · exact .inl ⟨f, h⟩
    · exact .inl ⟨f, h⟩
    · exact .inr ⟨_, h, rfl, rfl, rfl⟩
  case ldB x =>
    rcases storeAtI_cases (decimalDigits (readV s x)) s with ⟨f, -, h⟩ | ⟨-, h⟩
    · exact .inl ⟨f, h⟩
    · exact .inr ⟨_, h, rfl, rfl, rfl⟩
  case stRegs x =>
    rcases storeAtI_cases (regBytes s.v x) s with ⟨f, -, h⟩ | ⟨-, h⟩
    · exact .inl ⟨f, h⟩
    · exact .inr ⟨_, h, rfl, rfl, rfl⟩
  case ldRegs x =>
    cases h : rangeFault s.i.toNat (x.val + 1) with
    | some f => exact .inl ⟨f, execLdRegs_raises x s h⟩
    | none => exact .inr ⟨_, execLdRegs_ok x s h, rfl, rfl, rfl⟩
  case skp x =>
    cases h : keyFault (readV s x) with
    | some f => exact .inl ⟨f, execSkp_raises x s h⟩
    | none => exact .inr ⟨_, execSkp_ok x s h, rfl, rfl, rfl⟩
  case sknp x =>
    cases h : keyFault (readV s x) with
    | some f => exact .inl ⟨f, execSknp_raises x s h⟩
    | none => exact .inr ⟨_, execSknp_ok x s h, rfl, rfl, rfl⟩
  case ldVxK x =>
    refine .inr ⟨_, rfl, ?_, ?_, ?_⟩ <;> split <;> rfl
  all_goals exact .inr ⟨_, rfl, rfl, rfl, rfl⟩

/-- Every instruction answers a next state. -/
theorem exec_next (i : Instr) (s : State) : ∃ t, exec i s = .next t := by
  rcases exec_ends i s with ⟨f, h⟩ | ⟨t, h, -⟩
  · exact ⟨_, h⟩
  · exact ⟨_, h⟩

/-- An instruction touches neither the inputs nor load_error. -/
theorem exec_keeps_inputs {i : Instr} {s t : State} (h : exec i s = .next t) :
    t.inputs = s.inputs ∧ t.stepNo = s.stepNo ∧ t.loadError = s.loadError := by
  rcases exec_ends i s with ⟨f, hf⟩ | ⟨u, hu, h1, h2, h3⟩
  · rw [hf, raiseFault_next_iff] at h; subst h; exact ⟨rfl, rfl, rfl⟩
  · rw [hu, complete_next_iff] at h; subst h; exact ⟨h1, h2, h3⟩

/-- An instruction ends OK or in the fatal kind it raised, and then it has changed nothing (40_cycle.md R96). -/
theorem exec_result {i : Instr} {s t : State} (h : exec i s = .next t) :
    (t.result = .ok ∧ t.info = 0#16) ∨ ∃ f, exec i s = raiseFault f s ∧
      t = { s with displayChanged := false, result := f.kind, info := f.info } := by
  rcases exec_ends i s with ⟨f, hf⟩ | ⟨u, hu, -⟩
  · exact .inr ⟨f, hf, by rw [hf, raiseFault_next_iff] at h; exact h⟩
  · rw [hu, complete_next_iff] at h; subst h; exact .inl ⟨rfl, rfl⟩

/-! ### Fetch -/

/-- Fetch reads nothing but pc and memory. -/
theorem fetch_congr {s t : State} (hpc : t.pc = s.pc) (hm : t.mem = s.mem) : fetch t = fetch s := by
  unfold fetch; rw [hpc, hm]

@[simp] theorem fetch_beginStep (s : State) : fetch (beginStep s) = fetch s := fetch_congr rfl rfl

theorem fetch_ok {s : State} (h : s.pc.toNat + 1 < Config.memSize) :
    fetch s = .ok (wordOfBytes (memByte s.mem s.pc.toNat) (memByte s.mem (s.pc.toNat + 1))) := by
  simp only [fetch, memRead]
  rw [if_pos (by omega), if_pos h]

theorem fetch_error {s : State} (h : Config.memSize ≤ s.pc.toNat + 1) :
    fetch s = .error (.outOfBounds (BitVec.ofNat 16 (max s.pc.toNat 4096))) := by
  simp only [fetch, memRead, Config.memSize] at *
  by_cases h1 : s.pc.toNat < 4096
  · rw [if_pos h1, if_neg (by omega), show max s.pc.toNat 4096 = s.pc.toNat + 1 by omega]
  · rw [if_neg h1, show max s.pc.toNat 4096 = s.pc.toNat by omega]

/-- A fetch that succeeds bounds pc (70_reset_and_hazards.md R212). -/
theorem pc_lt_of_fetch {s : State} {op : Word} (h : fetch s = .ok op) : s.pc.toNat + 1 < Config.memSize := by
  by_contra hc
  rw [fetch_error (by omega)] at h
  cases h

/-! ### The Step -/

/-- All a Step can do: report LoadError; take the fetch's error; skip an Unknown word; or run the decoded instruction. -/
theorem step_cases (s : State) :
    (s.loadError = true ∧ step s = .next (consumeInput { s with result := .loadError, info := 0#16 })) ∨
    (s.loadError = false ∧ ∃ f, fetch s = .error f ∧
      step s = .next (consumeInput { beginStep s with result := f.kind, info := f.info })) ∨
    (s.loadError = false ∧ ∃ op, fetch s = .ok op ∧ decodeWord op = none ∧
      step s = .next (consumeInput { advance (beginStep s) with result := .unknownOpcode, info := op })) ∨
    (s.loadError = false ∧ ∃ op i t, fetch s = .ok op ∧ decodeWord op = some i ∧
      exec i (beginStep s) = .next t ∧ step s = .next (consumeInput t)) := by
  cases hl : s.loadError with
  | true => exact .inl ⟨rfl, by simp only [step, runStep, hl, if_true, report_eq, endStep]⟩
  | false =>
    have hs : step s = endStep (cycle (beginStep s)) := by simp [step, runStep, hl]
    rw [hs]
    cases hf : fetch s with
    | error f =>
      refine .inr (.inl ⟨rfl, f, rfl, ?_⟩)
      simp only [cycle, fetch_beginStep, hf, raiseFault_eq, endStep]
      rfl
    | ok op =>
      cases hd : decodeWord op with
      | none =>
        refine .inr (.inr (.inl ⟨rfl, op, rfl, hd, ?_⟩))
        simp only [cycle, fetch_beginStep, hf, executeWord, hd, reportUnknown, report_eq, endStep]
      | some i =>
        obtain ⟨t, ht⟩ := exec_next i (beginStep s)
        refine .inr (.inr (.inr ⟨rfl, op, i, t, rfl, hd, ht, ?_⟩))
        simp only [cycle, fetch_beginStep, hf, executeWord, hd, ht, endStep]

/-- The state a Step fetches in, when it is not blocked. -/
theorem beginStep_eq {s : State} (h : s.loadError = false) :
    beginStep s = { s with dt := countDown (stepInput s).ticks s.dt, displayChanged := false } := by
  simp [beginStep, tickMany, h]

/-! ### Placing a word -/

/-- After `withFetchWord` the next Step is not blocked and fetches exactly that word. -/
theorem fetch_withFetchWord (s : State) (nbits w : Nat) (h : Memory.wf s.mem) :
    (s.withFetchWord nbits w).loadError = false ∧ fetch (s.withFetchWord nbits w) = .ok (tableWord nbits w) := by
  refine ⟨rfl, ?_⟩
  have hpc : (fetchablePc s.pc).toNat + 1 < Config.memSize := by
    unfold fetchablePc
    split
    · assumption
    · simp [Config.pcReset, Config.memSize]
  rw [fetch_ok (s := s.withFetchWord nbits w) hpc]
  have h2 : ∀ x, memByte (s.withFetchWord nbits w).mem x = _ :=
    memByte_storeBytes h (fetchablePc s.pc).toNat [highByte (tableWord nbits w), lowByte (tableWord nbits w)]
      (by simp only [List.length_cons, List.length_nil]; omega)
  rw [h2, h2]
  have e : (s.withFetchWord nbits w).pc = fetchablePc s.pc := rfl
  simp only [e, List.length_cons, List.length_nil]
  rw [if_pos (by omega), if_pos (by omega), Nat.sub_self, show ∀ a : Nat, a + 1 - a = 1 by omega]
  simp

end Sys2Proof.Machine
end

