-- ==== Sys2Proof/Laws/PerInstr.lean ====
section
/-! SUPPORT. One fact per instruction: its encoding matches its row of the opcode map (30_encoding.md R75). -/

namespace Sys2Proof.Laws

/-- The word of the instruction is one its own row's mask and match accept (30_encoding.md R75). -/
def EncodesItsRow.Statement (i : Instr) : Prop := encode i &&& (opcodeRow i).1 = (opcodeRow i).2

/-! ### The formats of 30_encoding.md R72 -/

theorem eq_row_NNN {f : Nat} (hf : f < 16) (nnn : Imm12) {m : Word} (hm : m = BitVec.ofNat 16 (f * 4096)) :
    wordNNN f nnn &&& 0xF000#16 = m := by
  subst hm
  apply BitVec.eq_of_toNat_eq
  have := nnn.isLt
  rw [mask_F000_toNat, wordNNN_toNat hf, BitVec.toNat_ofNat]; omega

theorem eq_row_XKK {f : Nat} (hf : f < 16) (x : Reg) (kk : Byte) {m : Word} (hm : m = BitVec.ofNat 16 (f * 4096)) :
    wordXKK f x kk &&& 0xF000#16 = m := by
  subst hm
  apply BitVec.eq_of_toNat_eq
  have := kk.isLt
  rw [mask_F000_toNat, wordXKK_toNat hf, BitVec.toNat_ofNat]; omega

theorem eq_row_XY {f n : Nat} (hf : f < 16) (x y : Reg) (hn : n < 16) {m : Word}
    (hm : m = BitVec.ofNat 16 (f * 4096 + n)) : hexWord f x.val y.val n &&& 0xF00F#16 = m := by
  subst hm
  apply BitVec.eq_of_toNat_eq
  rw [mask_F00F_toNat, hexWord_toNat hf x.isLt y.isLt hn, BitVec.toNat_ofNat]; omega

theorem eq_row_X {f y n : Nat} (hf : f < 16) (x : Reg) (hy : y < 16) (hn : n < 16) {m : Word}
    (hm : m = BitVec.ofNat 16 (f * 4096 + y * 16 + n)) : hexWord f x.val y n &&& 0xF0FF#16 = m := by
  subst hm
  apply BitVec.eq_of_toNat_eq
  rw [mask_F0FF_toNat, hexWord_toNat hf x.isLt hy hn, BitVec.toNat_ofNat]; omega

theorem eq_row_XYN (x y : Reg) (n : Height) : hexWord 0xD x.val y.val n.val &&& 0xF000#16 = 0xD000#16 := by
  apply BitVec.eq_of_toNat_eq
  rw [mask_F000_toNat, hexWord_toNat (by omega) x.isLt y.isLt n.isLt, show (0xD000#16).toNat = 53248 from rfl]; omega

/-! ### One lemma per constructor -/

theorem EncodesItsRow.cls : EncodesItsRow.Statement (.cls) :=
  rfl

theorem EncodesItsRow.ret : EncodesItsRow.Statement (.ret) :=
  rfl

theorem EncodesItsRow.sys (nnn : Imm12) : EncodesItsRow.Statement (.sys nnn) :=
  eq_row_NNN (by omega) _ rfl

theorem EncodesItsRow.jp (nnn : Imm12) : EncodesItsRow.Statement (.jp nnn) :=
  eq_row_NNN (by omega) _ rfl

theorem EncodesItsRow.call (nnn : Imm12) : EncodesItsRow.Statement (.call nnn) :=
  eq_row_NNN (by omega) _ rfl

theorem EncodesItsRow.seImm (x : Reg) (kk : Byte) : EncodesItsRow.Statement (.seImm x kk) :=
  eq_row_XKK (by omega) _ _ rfl

theorem EncodesItsRow.sneImm (x : Reg) (kk : Byte) : EncodesItsRow.Statement (.sneImm x kk) :=
  eq_row_XKK (by omega) _ _ rfl

theorem EncodesItsRow.seReg (x y : Reg) : EncodesItsRow.Statement (.seReg x y) :=
  eq_row_XY (by omega) _ _ (by omega) rfl

theorem EncodesItsRow.ldImm (x : Reg) (kk : Byte) : EncodesItsRow.Statement (.ldImm x kk) :=
  eq_row_XKK (by omega) _ _ rfl

theorem EncodesItsRow.addImm (x : Reg) (kk : Byte) : EncodesItsRow.Statement (.addImm x kk) :=
  eq_row_XKK (by omega) _ _ rfl

theorem EncodesItsRow.ldReg (x y : Reg) : EncodesItsRow.Statement (.ldReg x y) :=
  eq_row_XY (by omega) _ _ (by omega) rfl

theorem EncodesItsRow.orReg (x y : Reg) : EncodesItsRow.Statement (.orReg x y) :=
  eq_row_XY (by omega) _ _ (by omega) rfl

theorem EncodesItsRow.andReg (x y : Reg) : EncodesItsRow.Statement (.andReg x y) :=
  eq_row_XY (by omega) _ _ (by omega) rfl

theorem EncodesItsRow.xorReg (x y : Reg) : EncodesItsRow.Statement (.xorReg x y) :=
  eq_row_XY (by omega) _ _ (by omega) rfl

theorem EncodesItsRow.addReg (x y : Reg) : EncodesItsRow.Statement (.addReg x y) :=
  eq_row_XY (by omega) _ _ (by omega) rfl

theorem EncodesItsRow.sub (x y : Reg) : EncodesItsRow.Statement (.sub x y) :=
  eq_row_XY (by omega) _ _ (by omega) rfl

theorem EncodesItsRow.shr (x y : Reg) : EncodesItsRow.Statement (.shr x y) :=
  eq_row_XY (by omega) _ _ (by omega) rfl

theorem EncodesItsRow.subn (x y : Reg) : EncodesItsRow.Statement (.subn x y) :=
  eq_row_XY (by omega) _ _ (by omega) rfl

theorem EncodesItsRow.shl (x y : Reg) : EncodesItsRow.Statement (.shl x y) :=
  eq_row_XY (by omega) _ _ (by omega) rfl

theorem EncodesItsRow.sneReg (x y : Reg) : EncodesItsRow.Statement (.sneReg x y) :=
  eq_row_XY (by omega) _ _ (by omega) rfl

theorem EncodesItsRow.ldI (nnn : Imm12) : EncodesItsRow.Statement (.ldI nnn) :=
  eq_row_NNN (by omega) _ rfl

theorem EncodesItsRow.jpV0 (nnn : Imm12) : EncodesItsRow.Statement (.jpV0 nnn) :=
  eq_row_NNN (by omega) _ rfl

theorem EncodesItsRow.rnd (x : Reg) (kk : Byte) : EncodesItsRow.Statement (.rnd x kk) :=
  eq_row_XKK (by omega) _ _ rfl

theorem EncodesItsRow.drw (x y : Reg) (n : Height) : EncodesItsRow.Statement (.drw x y n) :=
  eq_row_XYN _ _ _

theorem EncodesItsRow.skp (x : Reg) : EncodesItsRow.Statement (.skp x) :=
  eq_row_X (by omega) _ (by omega) (by omega) rfl

theorem EncodesItsRow.sknp (x : Reg) : EncodesItsRow.Statement (.sknp x) :=
  eq_row_X (by omega) _ (by omega) (by omega) rfl

theorem EncodesItsRow.ldVxDt (x : Reg) : EncodesItsRow.Statement (.ldVxDt x) :=
  eq_row_X (by omega) _ (by omega) (by omega) rfl

theorem EncodesItsRow.ldVxK (x : Reg) : EncodesItsRow.Statement (.ldVxK x) :=
  eq_row_X (by omega) _ (by omega) (by omega) rfl

theorem EncodesItsRow.ldDtVx (x : Reg) : EncodesItsRow.Statement (.ldDtVx x) :=
  eq_row_X (by omega) _ (by omega) (by omega) rfl

theorem EncodesItsRow.ldStVx (x : Reg) : EncodesItsRow.Statement (.ldStVx x) :=
  eq_row_X (by omega) _ (by omega) (by omega) rfl

theorem EncodesItsRow.addI (x : Reg) : EncodesItsRow.Statement (.addI x) :=
  eq_row_X (by omega) _ (by omega) (by omega) rfl

theorem EncodesItsRow.ldF (x : Reg) : EncodesItsRow.Statement (.ldF x) :=
  eq_row_X (by omega) _ (by omega) (by omega) rfl

theorem EncodesItsRow.ldB (x : Reg) : EncodesItsRow.Statement (.ldB x) :=
  eq_row_X (by omega) _ (by omega) (by omega) rfl

theorem EncodesItsRow.stRegs (x : Reg) : EncodesItsRow.Statement (.stRegs x) :=
  eq_row_X (by omega) _ (by omega) (by omega) rfl

theorem EncodesItsRow.ldRegs (x : Reg) : EncodesItsRow.Statement (.ldRegs x) :=
  eq_row_X (by omega) _ (by omega) (by omega) rfl

end Sys2Proof.Laws
end

