-- ==== Sys2Proof/Laws/Safety.lean ====
section
/-! SUPPORT. The terms of Safety.lean and the shared operations met once: program counter, frames, flags, operands, ticks,
fetched instructions, and what an instruction does to pc, stack and memory. -/

namespace Sys2Proof.Machine

/-! ### Program counter and frames -/

theorem pcNext_of {s t : State} (h : t.pc = s.pc + 2#16) : PcNext s t := by
  unfold PcNext; rw [h, BitVec.toNat_add]; rfl

theorem pcSkipsWhen_of {c : Bool} {P : Prop} {s t : State}
    (h : t.pc = if c then s.pc + 4#16 else s.pc + 2#16) (hp : c = true ↔ P) : PcSkipsWhen P s t := by
  unfold PcSkipsWhen; rw [h]; cases c <;> simp_all

theorem toNat_add_two {w : Word} (h : w.toNat ≤ 4094) : (w + 2#16).toNat = w.toNat + 2 := by
  rw [BitVec.toNat_add, show (2#16).toNat = 2 from rfl]; omega

theorem toNat_add_four {w : Word} (h : w.toNat ≤ 4094) : (w + 4#16).toNat = w.toNat + 4 := by
  rw [BitVec.toNat_add, show (4#16).toNat = 4 from rfl]; omega

/-- A state whose registers are `s`'s with one of them set keeps the others. -/
theorem keepsRegsExcept_set {x : Reg} {b : Byte} {s t : State} (h : t.v = s.v.set x.val b) :
    KeepsRegsExcept [x] s t := by
  intro r hr
  rw [show t.v[r.val] = (s.v.set x.val b)[r.val] from by simp [h]]
  exact writeV_other x r b s (by simpa using hr)

/-- A flag-writing instruction keeps every register but its destination and VF. -/
theorem keepsRegsExcept_flagThenResult {x : Reg} {flag : Byte} {res : State → Byte} {s t : State}
    (h : t.v = (flagThenResult x flag res s).v) : KeepsRegsExcept [x, regF] s t := by
  intro r hr
  simp only [List.mem_cons, List.not_mem_nil, or_false, not_or] at hr
  rw [show t.v[r.val] = (flagThenResult x flag res s).v[r.val] from by simp [h], getElem_flagThenResult,
    if_neg hr.1, if_neg hr.2]

/-! ### Flags and operands as numbers -/

theorem flagThenResult_dest (x : Reg) (flag : Byte) (res : State → Byte) (s : State) :
    (flagThenResult x flag res s).v[x.val] = res (writeV regF flag s) := by
  rw [getElem_flagThenResult, if_pos rfl]

theorem flagThenResult_flag {x : Reg} (h : x ≠ regF) (flag : Byte) (res : State → Byte) (s : State) :
    (flagThenResult x flag res s).v[15] = flag := by
  have := getElem_flagThenResult x regF flag res s
  rw [if_neg (Ne.symm h), if_pos rfl] at this
  exact this

theorem readV_writeV_regF (flag : Byte) (r : Reg) (s : State) :
    readV (writeV regF flag s) r = if r = regF then flag else s.v[r.val] := getElem_writeV ..

theorem flagByte_toNat (c : Bool) : (flagByte c).toNat = if c then 1 else 0 := by cases c <;> rfl

theorem carryFlag_toNat {a b : Byte} {m n : Nat} (hm : a.toNat = m) (hn : b.toNat = n) :
    (carryFlag a b).toNat = if m + n > 255 then 1 else 0 := by
  subst hm; subst hn; simp [carryFlag, flagByte_toNat]

theorem notBorrowFlag_toNat {a b : Byte} {m n : Nat} (hm : a.toNat = m) (hn : b.toNat = n) :
    (notBorrowFlag a b).toNat = if m < n then 0 else 1 := by
  subst hm; subst hn; simp only [notBorrowFlag, flagByte_toNat]; by_cases h : a.toNat < b.toNat <;> simp [h]

theorem shiftedOutRight_toNat : ∀ a : Byte, (shiftedOutRight a).toNat = a.toNat % 2 := by decide

theorem shiftedOutLeft_toNat : ∀ a : Byte, (shiftedOutLeft a).toNat = a.toNat / 128 := by decide

theorem immWord_toNat (nnn : Imm12) : (immWord nnn).toNat = nnn.toNat := by
  have := nnn.isLt
  simp only [immWord, BitVec.toNat_setWidth]; omega

theorem byteWord_toNat (b : Byte) : (byteWord b).toNat = b.toNat := by
  have := b.isLt
  simp only [byteWord, BitVec.toNat_setWidth]; omega

/-- The lowest held key at or above `k`, when there is one among the keys looked at. -/
theorem lowestHeld_spec {keys : BitVec 16} {fuel k : Nat}
    (h : ∃ j, k ≤ j ∧ j < k + fuel ∧ keys.getLsbD j = true) :
    lowestHeld keys fuel k < k + fuel ∧ keys.getLsbD (lowestHeld keys fuel k) = true ∧
      ∀ j, k ≤ j → j < lowestHeld keys fuel k → keys.getLsbD j = false := by
  induction fuel generalizing k with
  | zero => obtain ⟨j, h1, h2, -⟩ := h; omega
  | succ fuel ih =>
    simp only [lowestHeld]
    by_cases hk : keys.getLsbD k = true
    · rw [if_pos hk]; exact ⟨by omega, hk, fun j h1 h2 => by omega⟩
    · rw [if_neg hk]
      obtain ⟨j, h1, h2, h3⟩ := h
      have hjk : j ≠ k := fun e => hk (e ▸ h3)
      obtain ⟨a, b, c⟩ := ih (k := k + 1) ⟨j, by omega, by omega, h3⟩
      refine ⟨by omega, b, fun j h1 h2 => ?_⟩
      by_cases e : j = k
      · subst e; simpa using hk
      · exact c j (by omega) h2

/-! ### Stores -/

theorem storeAtI_ok {bs : List Byte} {s : State} (h : s.i.toNat + bs.length ≤ Config.memSize) :
    storeAtI bs s = complete (advance { s with mem := storeBytes s.mem s.i.toNat bs }) := by
  simp only [storeAtI]
  rw [rangeFault_ok (by simp only [Config.memSize] at h; omega)]

theorem storeAtI_raises {bs : List Byte} {s : State} (h0 : 0 < bs.length)
    (h : Config.memSize < s.i.toNat + bs.length) :
    storeAtI bs s = raiseFault (.outOfBounds (BitVec.ofNat 16 (max s.i.toNat 4096))) s := by
  simp only [storeAtI]
  rw [rangeFault_some h0 (by simp only [Config.memSize] at h; omega)]

theorem keepsBytesOutside_of {bs : List Byte} {s t : State} (hm : Memory.wf s.mem)
    (h : s.i.toNat + bs.length ≤ Config.memSize) (ht : t.mem = storeBytes s.mem s.i.toNat bs) :
    KeepsBytesOutside s.i.toNat bs.length s t := by
  intro a ha
  rw [ht, memByte_storeBytes hm _ _ h, if_neg (by omega)]

/-! ### Ticks -/

theorem countDown_toNat (n : Nat) (dt : Byte) : (countDown n dt).toNat = dt.toNat - n := by
  have := dt.isLt
  simp only [countDown, BitVec.toNat_ofNat]; omega

theorem countDown_zero (dt : Byte) : countDown 0 dt = dt :=
  BitVec.eq_of_toNat_eq (by rw [countDown_toNat]; rfl)

/-- One Tick60 event (60_exceptions.md R184). -/
theorem tick60_eq_tickMany (s : State) : tick60 s = tickMany 1 s := by
  unfold tick60 tickMany
  cases hl : s.loadError
  · by_cases h0 : s.dt = 0#8
    · have : countDown 1 s.dt = s.dt := BitVec.eq_of_toNat_eq (by rw [countDown_toNat, h0]; rfl)
      rw [if_neg (fun h => h.2 h0), if_neg (by simp), this, ← hl]
    · have h1 : s.dt.toNat ≠ 0 := fun e => h0 (BitVec.eq_of_toNat_eq e)
      have : s.dt - 1#8 = countDown 1 s.dt := by
        apply BitVec.eq_of_toNat_eq
        have := s.dt.isLt
        rw [countDown_toNat, BitVec.toNat_sub, show (1#8).toNat = 1 from rfl]; omega
      simp [h0, writeDt, this, hl]
  · simp [← hl]

/-! ### Fetched instructions -/

theorem fetches_iff (s : State) (i : Instr) :
    Fetches s i ↔ s.loadError = false ∧ ∃ op, fetch s = .ok op ∧ decodeWord op = some i := by
  unfold Fetches
  constructor
  · rintro ⟨h, h1, h2⟩; exact ⟨h, _, fetch_ok h1, h2⟩
  · rintro ⟨h, op, h1, h2⟩
    have hp := pc_lt_of_fetch h1
    rw [fetch_ok hp] at h1; cases h1
    exact ⟨h, hp, h2⟩

/-- A Step that fetches an instruction runs it, on the state `beginStep` leaves. -/
theorem step_of_fetches {s : State} {i : Instr} (h : Fetches s i) :
    ∃ t, exec i (beginStep s) = .next t ∧ step s = .next (consumeInput t) := by
  obtain ⟨hl, op, hf, hd⟩ := (fetches_iff s i).1 h
  rcases step_cases s with ⟨h1, -⟩ | ⟨-, f, hf', -⟩ | ⟨-, op', hf', hd', -⟩ | ⟨-, op', i', t, hf', hd', he, hs⟩
  · rw [hl] at h1; cases h1
  · rw [hf] at hf'; cases hf'
  · rw [hf] at hf'; cases hf'; rw [hd] at hd'; cases hd'
  · rw [hf] at hf'; cases hf'; rw [hd] at hd'; cases hd'; exact ⟨t, he, hs⟩

/-! ### pc, stack and memory -/

/-- The ways an instruction moves pc and the stack (40_cycle.md R95): hold, next, skip, absolute and indexed leave the
stack; CALL pushes; RET pops. -/
def Moves (i : Instr) (s t : State) : Prop :=
  (t.sp = s.sp ∧ t.stack = s.stack ∧
    (t.pc = s.pc ∨ t.pc = s.pc + 2#16 ∨ t.pc = s.pc + 4#16 ∨ (∃ n, i = .jp n ∧ t.pc = immWord n) ∨
      ∃ n, i = .jpV0 n ∧ t.pc = byteWord s.v[0] + immWord n)) ∨
  (∃ (_ : s.sp.val < 16) (n : Imm12), i = .call n ∧ t.pc = immWord n ∧
    t.stack = s.stack.set s.sp.val s.pc ∧ t.sp.val = s.sp.val + 1) ∨
  (∃ _ : 0 < s.sp.val, i = .ret ∧ t.stack = s.stack ∧ t.sp.val = s.sp.val - 1 ∧
    t.pc = (s.stack[s.sp.val - 1]'(by omega)) + 2#16)

theorem skipIf_pc_cases {A : Prop} (c : Bool) (s : State) :
    (skipIf c s).pc = s.pc ∨ (skipIf c s).pc = s.pc + 2#16 ∨ (skipIf c s).pc = s.pc + 4#16 ∨ A := by
  cases c <;> simp

/-- Every instruction keeps memory in canonical form and moves pc and the stack in one of those ways. -/
theorem exec_moves {i : Instr} {s t : State} (hm : Memory.wf s.mem) (h : exec i s = .next t) :
    Memory.wf t.mem ∧ Moves i s t := by
  unfold Moves
  cases i
  case ret =>
    by_cases hp : 0 < s.sp.val
    · rw [exec, execRet_of_pos s hp] at h; cases h; exact ⟨hm, .inr (.inr ⟨hp, by simp⟩)⟩
    · rw [exec, execRet_empty s (by omega)] at h; cases h; exact ⟨hm, .inl (by simp)⟩
  case call nnn =>
    by_cases hp : s.sp.val < 16
    · rw [exec, execCall_of_lt nnn s hp] at h; cases h; exact ⟨hm, .inr (.inl ⟨hp, nnn, by simp⟩)⟩
    · rw [exec, execCall_full nnn s (by omega)] at h; cases h; exact ⟨hm, .inl (by simp)⟩
  case drw x y n =>
    rcases execDrw_cases x y n s with ⟨f, -, hf⟩ | ⟨-, f, -, hf⟩ | ⟨-, -, hf⟩ <;> rw [exec, hf] at h <;> cases h <;>
      exact ⟨hm, .inl (by simp)⟩
  case ldB x =>
    rcases storeAtI_cases (decimalDigits (readV s x)) s with ⟨f, -, hf⟩ | ⟨-, hf⟩ <;>
      rw [exec, execLdB, hf] at h <;> cases h
    · exact ⟨hm, .inl (by simp)⟩
    · exact ⟨Memory.wf_storeBytes hm _ _, .inl (by simp)⟩
  case stRegs x =>
    rcases storeAtI_cases (regBytes s.v x) s with ⟨f, -, hf⟩ | ⟨-, hf⟩ <;> rw [exec, execStRegs, hf] at h <;> cases h
    · exact ⟨hm, .inl (by simp)⟩
    · exact ⟨Memory.wf_storeBytes hm _ _, .inl (by simp)⟩
  case ldRegs x =>
    cases hf : rangeFault s.i.toNat (x.val + 1) with
    | some f => rw [exec, execLdRegs_raises x s hf] at h; cases h; exact ⟨hm, .inl (by simp)⟩
    | none => rw [exec, execLdRegs_ok x s hf] at h; cases h; exact ⟨hm, .inl (by simp)⟩
  case skp x =>
    cases hf : keyFault (readV s x) with
    | some f => rw [exec, execSkp_raises x s hf] at h; cases h; exact ⟨hm, .inl (by simp)⟩
    | none => rw [exec, execSkp_ok x s hf] at h; cases h; exact ⟨hm, .inl ⟨rfl, rfl, skipIf_pc_cases ..⟩⟩
  case sknp x =>
    cases hf : keyFault (readV s x) with
    | some f => rw [exec, execSknp_raises x s hf] at h; cases h; exact ⟨hm, .inl (by simp)⟩
    | none => rw [exec, execSknp_ok x s hf] at h; cases h; exact ⟨hm, .inl ⟨rfl, rfl, skipIf_pc_cases ..⟩⟩
  case ldVxK x =>
    rw [exec, execLdVxK, complete_next_iff] at h; subst h
    split <;> exact ⟨hm, .inl (by simp)⟩
  case seImm x kk => cases h; exact ⟨hm, .inl ⟨rfl, rfl, skipIf_pc_cases ..⟩⟩
  case sneImm x kk => cases h; exact ⟨hm, .inl ⟨rfl, rfl, skipIf_pc_cases ..⟩⟩
  case seReg x y => cases h; exact ⟨hm, .inl ⟨rfl, rfl, skipIf_pc_cases ..⟩⟩
  case sneReg x y => cases h; exact ⟨hm, .inl ⟨rfl, rfl, skipIf_pc_cases ..⟩⟩
  all_goals cases h; exact ⟨hm, .inl (by simp [flagThenResult])⟩

/-! ### The sprite -/

/-- A draw that is inside completes. -/
theorem execDrw_of_inside {x y : Reg} {n : Height} {s : State} (h : DrawIsInside s x y n) :
    exec (.drw x y n) s = complete (advance (writeV regF (flagByte (blitSprite x y n s).2)
      (showFrame (blitSprite x y n s).1 s))) := by
  have h1 : rangeFault s.i.toNat n.val = none := rangeFault_ok (by unfold DrawIsInside at h; omega)
  have h2 : footprintFault (readV s x) (readV s y) n.val = none := by
    unfold DrawIsInside at h
    rw [footprintFault, if_neg (by simp only [readV_def]; omega)]
  simp only [exec, execDrw, h1, h2]

/-- The rows DXYN reads, placed, are the sprite of Safety.lean. -/
theorem placedRows_readBytes (s : State) (x y : Reg) (n : Height) (r c : Nat) :
    placedRows (readBytes s.mem s.i.toNat n.val) s.v[x.val].toNat s.v[y.val].toNat r c = placedSprite s x y n r c := by
  unfold placedRows placedSprite
  simp only [length_readBytes]
  by_cases h : s.v[y.val].toNat ≤ r ∧ r < s.v[y.val].toNat + n.val ∧ s.v[x.val].toNat ≤ c ∧ c < s.v[x.val].toNat + 8
  · rw [decide_eq_true h, getD_readBytes _ _ _ _ (by omega)]
  · rw [decide_eq_false h]; rfl

end Sys2Proof.Machine
end

