-- ==== Sys2Proof/Tests/Slice0.lean ====
section
/-! SUPPORT. Tests: ill-formed terms refused, words written out from the encodings of 30_encoding.md, one Step on small
states with the expected values of 95_test_vectors.md (vector ids in the comments), and, for every obligation with hypotheses,
a state and operands that meet them. -/

namespace Sys2Proof.Tests

open Sys2Proof.Machine

/-! ### WellFormed (30_encoding.md R77) -/

theorem test_wellFormed_refuses_sys_0E0 : (Instr.sys 0x0E0#12).wellFormed = false := by decide
theorem test_wellFormed_refuses_sys_0EE : (Instr.sys 0x0EE#12).wellFormed = false := by decide
theorem test_wellFormed_accepts_sys_0E1 : (Instr.sys 0x0E1#12).wellFormed = true := by decide

/-! ### Decode: every row's word written out from its format (30_encoding.md R72, R75) -/

theorem test_decode_family_0 :
    decodeWord 0b0000000011100000#16 = some .cls ∧ decodeWord 0b0000000011101110#16 = some .ret ∧
    decodeWord 0b0000000100100011#16 = some (.sys 0x123#12) ∧ decodeWord 0x00E1#16 = some (.sys 0x0E1#12) := by decide

theorem test_decode_nnn_families :
    decodeWord 0b0001101010111100#16 = some (.jp 0xABC#12) ∧ decodeWord 0b0010101010111100#16 = some (.call 0xABC#12) ∧
    decodeWord 0b1010001000010000#16 = some (.ldI 0x210#12) ∧
    decodeWord 0b1011001100000000#16 = some (.jpV0 0x300#12) := by decide

theorem test_decode_xkk_families :
    decodeWord 0b0011001101000010#16 = some (.seImm 3 0x42#8) ∧
    decodeWord 0b0100001101000011#16 = some (.sneImm 3 0x43#8) ∧
    decodeWord 0b0110000000000101#16 = some (.ldImm 0 0x05#8) ∧
    decodeWord 0b0111111111111111#16 = some (.addImm 15 0xFF#8) ∧
    decodeWord 0b1100001100001111#16 = some (.rnd 3 0x0F#8) := by decide

theorem test_decode_family_5_and_9 :
    decodeWord 0b0101001101000000#16 = some (.seReg 3 4) ∧ decodeWord 0b1001001101000000#16 = some (.sneReg 3 4) ∧
    decodeWord 0x5341#16 = none ∧ decodeWord 0x934F#16 = none := by decide

theorem test_decode_family_8 :
    decodeWord 0b1000000100100000#16 = some (.ldReg 1 2) ∧ decodeWord 0b1000000100100001#16 = some (.orReg 1 2) ∧
    decodeWord 0b1000000100100010#16 = some (.andReg 1 2) ∧ decodeWord 0b1000000100100011#16 = some (.xorReg 1 2) ∧
    decodeWord 0b1000000100100100#16 = some (.addReg 1 2) ∧ decodeWord 0b1000000100100101#16 = some (.sub 1 2) ∧
    decodeWord 0b1000000100100110#16 = some (.shr 1 2) ∧ decodeWord 0b1000000100100111#16 = some (.subn 1 2) ∧
    decodeWord 0b1000000100101110#16 = some (.shl 1 2) ∧
    decodeWord 0x8008#16 = none ∧ decodeWord 0x800F#16 = none ∧ decodeWord 0x8129#16 = none := by decide

theorem test_decode_family_D : decodeWord 0b1101101010110101#16 = some (.drw 10 11 5) := by decide

theorem test_decode_family_E :
    decodeWord 0b1110000110011110#16 = some (.skp 1) ∧ decodeWord 0b1110000110100001#16 = some (.sknp 1) ∧
    decodeWord 0xE09F#16 = none ∧ decodeWord 0xE000#16 = none ∧ decodeWord 0xE19D#16 = none := by decide

theorem test_decode_family_F :
    decodeWord 0b1111010100000111#16 = some (.ldVxDt 5) ∧ decodeWord 0b1111001100001010#16 = some (.ldVxK 3) ∧
    decodeWord 0b1111010100010101#16 = some (.ldDtVx 5) ∧ decodeWord 0b1111010100011000#16 = some (.ldStVx 5) ∧
    decodeWord 0b1111001000011110#16 = some (.addI 2) ∧ decodeWord 0b1111010000101001#16 = some (.ldF 4) ∧
    decodeWord 0b1111010100110011#16 = some (.ldB 5) ∧ decodeWord 0b1111001001010101#16 = some (.stRegs 2) ∧
    decodeWord 0b1111001001100101#16 = some (.ldRegs 2) := by decide

theorem test_decode_family_F_unknown :
    decodeWord 0xF000#16 = none ∧ decodeWord 0xF1FF#16 = none ∧ decodeWord 0xF154#16 = none ∧
    decodeWord 0xF166#16 = none ∧ decodeWord 0xF030#16 = none := by decide

/-- High byte first (30_encoding.md R70); a lone byte is no instruction. -/
theorem test_decode_bytes :
    decode [0x60#8, 0x05#8, 0x77#8] = .ok (.ldImm 0 0x05#8, [0x77#8]) ∧ decode [0x60#8] = .error .truncated ∧
    decode [0x53#8, 0x41#8] = .error (.unknownOpcode 0x5341#16) := ⟨rfl, rfl, rfl⟩

theorem test_decodeTableWord :
    decodeTableWord 16 0xA210 = some (.ldI 0x210#12) ∧ decodeTableWord 16 0x5341 = none := by decide

/-! ### Helpers -/

/-- Reset, with the next Step's inputs given: no tick, the keys `keys`, the random byte `rnd`. -/
def start (keys : BitVec 16 := 0#16) (rnd : Byte := 0#8) : State :=
  { State.reset with inputs := [{ ticks := 0, keyHeld := keys, rnd := rnd, pick := 0 }] }

/-- `s` with V[a], V[b], VF set. -/
def withRegs (a : Reg) (p : Byte) (b : Reg) (q : Byte) (f : Byte) (s : State) : State :=
  writeV b q (writeV a p (writeV regF f s))

/-- The state one Step on the word `w`, stored at pc, leaves. -/
def after (w : Nat) (s : State) : State :=
  match step (s.withFetchWord 16 w) with
  | .next t => t
  | .fault _ => s
  | .refused _ => s

/-- What a Step reported. -/
def reported (s : State) : Result × Word := (s.result, s.info)

/-! ### Flow (F vectors) -/

-- F15, F16, F17
theorem test_sys : (after 0x0123 start).pc = 0x0202#16 ∧ reported (after 0x00E1 start) = (.ok, 0#16) := by decide
-- F1, F3
theorem test_jp : (after 0x1ABC start).pc = 0x0ABC#16 ∧ (after 0x1001 start).pc = 0x0001#16 := by decide
-- F11
theorem test_call : (after 0x2300 { start with sp := 15 }).stack[15] = 0x0200#16 ∧
    (after 0x2300 { start with sp := 15 }).sp = 16 ∧ (after 0x2300 { start with sp := 15 }).pc = 0x0300#16 := by decide
-- F10
theorem test_call_overflow : reported (after 0x2300 { start with sp := 16 }) = (.stackOverflow, 0#16) ∧
    (after 0x2300 { start with sp := 16 }).pc = 0x0200#16 := by decide
-- F8
theorem test_ret : (after 0x00EE { start with sp := 1, stack := start.stack.set 0 0x0204#16 }).pc = 0x0206#16 ∧
    (after 0x00EE { start with sp := 1, stack := start.stack.set 0 0x0204#16 }).sp = 0 := by decide
-- F9; the flag is cleared by a Step that faults (40_cycle.md R91)
theorem test_ret_underflow : reported (after 0x00EE { start with displayChanged := true }) = (.stackUnderflow, 0#16) ∧
    (after 0x00EE { start with displayChanged := true }).displayChanged = false := by decide
-- F14
theorem test_jpV0 : (after 0xBFFF (withRegs 0 0xFF#8 1 0#8 0#8 start)).pc = 0x10FE#16 := by decide

/-! ### Skips (SK vectors) -/

-- SK1, SK2
theorem test_seImm : (after 0x3342 (withRegs 3 0x42#8 4 0#8 0#8 start)).pc = 0x0204#16 ∧
    (after 0x3343 (withRegs 3 0x42#8 4 0#8 0#8 start)).pc = 0x0202#16 := by decide
-- SK3, SK4
theorem test_sneImm : (after 0x4342 (withRegs 3 0x42#8 4 0#8 0#8 start)).pc = 0x0202#16 ∧
    (after 0x4343 (withRegs 3 0x42#8 4 0#8 0#8 start)).pc = 0x0204#16 := by decide
-- SK5, SK6
theorem test_seReg : (after 0x5340 (withRegs 3 0x42#8 4 0x42#8 0#8 start)).pc = 0x0204#16 ∧
    (after 0x5340 (withRegs 3 0x42#8 4 0x43#8 0#8 start)).pc = 0x0202#16 := by decide
-- SK7, SK8
theorem test_sneReg : (after 0x9340 (withRegs 3 0x42#8 4 0x42#8 0#8 start)).pc = 0x0202#16 ∧
    (after 0x9340 (withRegs 3 0x42#8 4 0x43#8 0#8 start)).pc = 0x0204#16 := by decide
-- SK11
theorem test_unknown : reported (after 0x5341 start) = (.unknownOpcode, 0x5341#16) ∧
    (after 0x5341 start).pc = 0x0202#16 := by decide
-- SK13
theorem test_skip_at_top : (after 0x3000 { start with pc := 0x0FFE#16 }).pc = 0x1002#16 := by decide

/-! ### Arithmetic and logic (A vectors) -/

-- A1 (the source's SC1), A2
theorem test_ldImm : (after 0x6005 start).v[0] = 0x05#8 ∧ (after 0x6FAB start).v[15] = 0xAB#8 := by decide
-- A3
theorem test_addImm : (after 0x7105 (withRegs 1 0xFE#8 2 0#8 0#8 start)).v[1] = 0x03#8 ∧
    (after 0x7105 (withRegs 1 0xFE#8 2 0#8 0#8 start)).v[15] = 0#8 := by decide
-- A5
theorem test_ldReg : (after 0x8120 (withRegs 1 0x11#8 2 0x99#8 0#8 start)).v[1] = 0x99#8 := by decide
-- A6
theorem test_orReg : (after 0x8121 (withRegs 1 0xF0#8 2 0x0F#8 0x55#8 start)).v[1] = 0xFF#8 ∧
    (after 0x8121 (withRegs 1 0xF0#8 2 0x0F#8 0x55#8 start)).v[15] = 0x55#8 := by decide
-- A7, A8
theorem test_andReg : (after 0x8122 (withRegs 1 0xF0#8 2 0x3C#8 0#8 start)).v[1] = 0x30#8 := by decide
theorem test_xorReg : (after 0x8123 (withRegs 1 0xF0#8 2 0x3C#8 0#8 start)).v[1] = 0xCC#8 := by decide
-- A11
theorem test_addReg : (after 0x8124 (withRegs 1 0xFF#8 2 0x01#8 0#8 start)).v[1] = 0x00#8 ∧
    (after 0x8124 (withRegs 1 0xFF#8 2 0x01#8 0#8 start)).v[15] = 0x01#8 := by decide
-- A15, A14
theorem test_addReg_VF : (after 0x81F4 (withRegs 1 0x05#8 2 0#8 0xFF#8 start)).v[1] = 0x04#8 ∧
    (after 0x8F14 (withRegs 1 0x80#8 2 0#8 0x80#8 start)).v[15] = 0x00#8 := by decide
-- A21
theorem test_sub : (after 0x8125 (withRegs 1 0x03#8 2 0x05#8 1#8 start)).v[1] = 0xFE#8 ∧
    (after 0x8125 (withRegs 1 0x03#8 2 0x05#8 1#8 start)).v[15] = 0x00#8 := by decide
-- A24, A26
theorem test_sub_VF : (after 0x8F15 (withRegs 1 0x03#8 2 0#8 0x09#8 start)).v[15] = 0xFE#8 ∧
    (after 0x81F5 (withRegs 1 0x0A#8 2 0#8 0x03#8 start)).v[1] = 0x09#8 := by decide
-- A30
theorem test_shr : (after 0x8126 (withRegs 1 0x05#8 2 0xAA#8 0#8 start)).v[1] = 0x02#8 ∧
    (after 0x8126 (withRegs 1 0x05#8 2 0xAA#8 0#8 start)).v[15] = 0x01#8 := by decide
-- A34, A32
theorem test_shr_VF : (after 0x8F26 (withRegs 1 0#8 2 0#8 0x07#8 start)).v[15] = 0x00#8 ∧
    (after 0x8126 (withRegs 1 0xFF#8 2 0#8 0#8 start)).v[1] = 0x7F#8 := by decide
-- A41
theorem test_subn : (after 0x8127 (withRegs 1 0x05#8 2 0x03#8 1#8 start)).v[1] = 0xFE#8 ∧
    (after 0x8127 (withRegs 1 0x05#8 2 0x03#8 1#8 start)).v[15] = 0x00#8 := by decide
-- A44, A45
theorem test_subn_VF : (after 0x8F17 (withRegs 1 0x03#8 2 0#8 0x02#8 start)).v[15] = 0x02#8 ∧
    (after 0x81F7 (withRegs 1 0x0A#8 2 0#8 0x03#8 start)).v[1] = 0xF6#8 := by decide
-- A50
theorem test_shl : (after 0x812E (withRegs 1 0x81#8 2 0x55#8 0#8 start)).v[1] = 0x02#8 ∧
    (after 0x812E (withRegs 1 0x81#8 2 0x55#8 0#8 start)).v[15] = 0x01#8 := by decide
-- A53, A54
theorem test_shl_VF : (after 0x8F2E (withRegs 1 0#8 2 0#8 0x81#8 start)).v[15] = 0x02#8 ∧
    (after 0x8F2E (withRegs 1 0#8 2 0#8 0x41#8 start)).v[15] = 0x00#8 := by decide
-- A60
theorem test_rnd : (after 0xC30F (start 0#16 0xA7#8)).v[3] = 0x07#8 := by decide

/-! ### Index and memory (M vectors) -/

-- M1 (the source's SC2)
theorem test_ldI : (after 0xA210 start).i = 0x0210#16 := by decide
-- M4, M5
theorem test_addI : (after 0xF21E (withRegs 2 0xFF#8 3 0#8 0#8 { start with i := 0x0FFF#16 })).i = 0x10FE#16 ∧
    (after 0xF21E (withRegs 2 0x01#8 3 0#8 7#8 { start with i := 0xFFFF#16 })).i = 0x0000#16 := by decide
-- M6
theorem test_ldF : (after 0xF429 { start with i := 0x0ABC#16 }).i = 0x0000#16 := by decide
-- M7: digits 1, 5, 6 in front of nothing else; the word itself stands at 0x200
theorem test_ldB : (after 0xF533 (withRegs 5 0x9C#8 1 0#8 0#8 { start with i := 0x0300#16 })).mem =
    [(0x200, 0xF5#8), (0x201, 0x33#8), (0x300, 1#8), (0x301, 5#8), (0x302, 6#8)] := by decide
-- M11
theorem test_ldB_out : reported (after 0xF533 { start with i := 0x0FFE#16 }) = (.outOfBounds, 0x1000#16) := by decide
-- M14
theorem test_stRegs : ((after 0xF155 (withRegs 0 0x11#8 1 0x22#8 0#8 { start with i := 0x0400#16 })).mem.drop 2) =
    [(0x400, 0x11#8), (0x401, 0x22#8)] := by decide
-- M16: no partial store
theorem test_stRegs_out : ((after 0xF155 (withRegs 0 0xAB#8 1 0xCD#8 0#8 { start with i := 0x0FFF#16 })).mem.drop 2) = [] := by
  decide
-- M19: the three bytes at I
theorem test_ldRegs : ((after 0xF265 { start with
      i := 0x0400#16, mem := [(0x400, 0x11#8), (0x401, 0x22#8), (0x402, 0x33#8)] }).v.toList.take 4) =
    [0x11#8, 0x22#8, 0x33#8, 0#8] := by decide
-- M21
theorem test_ldRegs_out : (after 0xF665 (withRegs 0 0x77#8 1 0#8 0#8 { start with i := 0x0FFA#16 })).v[0] = 0x77#8 ∧
    reported (after 0xF665 { start with i := 0x0FFA#16 }) = (.outOfBounds, 0x1000#16) := by decide

/-! ### Display (DR vectors) -/

-- DR12
theorem test_cls : (after 0x00E0 start).displayChanged = true ∧ pixel (after 0x00E0 start) 31 63 = false := by decide
-- "MSB first": the single lit pixel is (0, 15)
theorem test_drw : pixel (after 0xD011 (withRegs 0 8#8 1 0#8 9#8 { start with i := 0x300#16, mem := [(0x300, 1#8)] })) 0 15 = true ∧
    pixel (after 0xD011 (withRegs 0 8#8 1 0#8 9#8 { start with i := 0x300#16, mem := [(0x300, 1#8)] })) 0 8 = false := by
  decide
-- DR8, DR9: memory is checked before the footprint
theorem test_drw_order :
    reported (after 0xD012 (withRegs 0 60#8 1 0#8 9#8 { start with i := 0x0FFF#16 })) = (.outOfBounds, 0x1000#16) ∧
    reported (after 0xD011 (withRegs 0 60#8 1 0#8 9#8 { start with i := 0x0FFF#16 })) = (.drawOutOfBounds, 0x3C00#16) := by
  decide

/-! ### Keys and timer (K vectors) -/

-- K1, K2
theorem test_skp : (after 0xE19E (withRegs 1 0x0A#8 2 0#8 0#8 (start 0x0400#16))).pc = 0x0204#16 ∧
    (after 0xE19E (withRegs 1 0x0A#8 2 0#8 0#8 (start 0xFBFF#16))).pc = 0x0202#16 := by decide
-- K6
theorem test_skp_out :
    reported (after 0xE19E (withRegs 1 0x10#8 2 0#8 0#8 (start 0xFFFF#16))) = (.keyIndexOutOfRange, 0x0010#16) := by
  decide
-- K3, K4
theorem test_sknp : (after 0xE1A1 (withRegs 1 0x0A#8 2 0#8 0#8 (start 0x0400#16))).pc = 0x0202#16 ∧
    (after 0xE1A1 (withRegs 1 0x0A#8 2 0#8 0#8 start)).pc = 0x0204#16 := by decide
-- K8, K9
theorem test_ldVxK : (after 0xF30A (start 0x8000#16)).v[3] = 0x0F#8 ∧ (after 0xF30A (start 0x8001#16)).v[3] = 0#8 := by
  decide
-- K10
theorem test_ldVxK_hold : (after 0xF30A start).pc = 0x0200#16 ∧ reported (after 0xF30A start) = (.ok, 0#16) := by decide
-- K11
theorem test_ldVxDt : (after 0xF507 { start with dt := 0x2A#8 }).v[5] = 0x2A#8 := by decide
-- K12
theorem test_ldDtVx : (after 0xF515 (withRegs 5 0xFF#8 1 0#8 0#8 start)).dt = 0xFF#8 := by decide
-- K13
theorem test_ldStVx : (after 0xF518 { start with dt := 9#8 }).dt = 9#8 ∧ (after 0xF518 start).pc = 0x0202#16 := by decide
-- K21, K22, K24
theorem test_tick60 : (tick60 { start with dt := 1#8 }).dt = 0#8 ∧ (tick60 start).dt = 0#8 ∧
    (tick60 { start with loadError := true, dt := 5#8 }).dt = 5#8 := by decide

/-! ### Load and reset (LD vectors) -/

-- LD4
theorem test_reset_image : (resetRom [0x12#8, 0x00#8]).mem = [(0x200, 0x12#8)] ∧
    (resetRom [0x12#8, 0x00#8]).loadError = false := by decide
-- LD2
theorem test_loadError : ∃ t, step { start with loadError := true, displayChanged := true } = .next t ∧
    reported t = (.loadError, 0#16) ∧ t.displayChanged = true ∧ t.pc = 0x0200#16 := ⟨_, rfl, by decide⟩

/-! ### A word placed after reset runs, with free inputs -/

theorem test_withFetchWord_runs_first : ∃ t, step (State.reset.withFetchWord 16 0x6005) = .next t ∧ t.v[0] = 5#8 ∧
    t.pc = 0x0202#16 ∧ reported t = (.ok, 0#16) := ⟨_, rfl, by decide⟩

/-! ### Witnesses: for each statement with hypotheses, a state and operands that meet them, clause by clause -/

/-- The address of an instruction near the top of memory, with the word 6005 in it. -/
def atTop : State := { start with pc := 0x0FFE#16, mem := [(0xFFE, 0x60#8), (0xFFF, 0x05#8)] }

/-- A state whose next Step runs the word `w`. -/
def at200 (w : Nat) (s : State := start) : State := s.withFetchWord 16 w

theorem witness_JumpSetsPcToItsOperand : (0xFFE#12).toNat ≠ 0xFFF ∧ (0xFFF#12).toNat = 0xFFF := by decide

theorem witness_CallPushesItsOwnAddressOrOverflows :
    ({ start with sp := 16 } : State).sp.val = 16 ∧ ({ start with sp := 15 } : State).sp.val < 16 ∧
    (∃ op, fetch atTop = .ok op) ∧ atTop.pc.toNat = 0x0FFE := ⟨rfl, by decide, ⟨_, rfl⟩, rfl⟩

theorem witness_ReturnPopsAndAddsTwoOrUnderflows :
    start.sp.val = 0 ∧ 0 < ({ start with sp := 1 } : State).sp.val ∧ 0 < ({ start with sp := 16 } : State).sp.val := by
  decide

theorem witness_IndexedJumpAddsV0 : ∃ t, exec (.jpV0 0xF01#12) (withRegs 0 0xFF#8 1 0#8 0#8 start) = .next t ∧
    t.pc.toNat = 0x1000 := ⟨_, rfl, by decide⟩

theorem witness_CallThenReturnComesBack : ({ start with sp := 15 } : State).sp.val < 16 := by decide

theorem witness_SysAndSoundTimerOnlyAdvancePc :
    (∃ nnn, Instr.sys 0x123#12 = .sys nnn) ∧ ∃ x, Instr.ldStVx 5 = .ldStVx x := ⟨⟨_, rfl⟩, ⟨_, rfl⟩⟩

theorem witness_SkipsOnImmediate : (withRegs 3 0x42#8 4 0#8 0#8 start).v[3].toNat = (0x42#8).toNat ∧
    (withRegs 3 0x42#8 4 0#8 0#8 start).v[3].toNat ≠ (0x43#8).toNat := by decide

theorem witness_SkipsOnRegisters :
    (withRegs 3 0x42#8 4 0x42#8 0#8 start).v[3].toNat = (withRegs 3 0x42#8 4 0x42#8 0#8 start).v[4].toNat ∧
    (withRegs 3 0x42#8 4 0x43#8 0#8 start).v[3].toNat ≠ (withRegs 3 0x42#8 4 0x43#8 0#8 start).v[4].toNat := by decide

/-- For the statements about flag-writing instructions: a destination that is not VF, operands on both sides of a carry, a
borrow. -/
theorem witness_flag_writing_instructions : (1 : Reg) ≠ regF ∧
    (withRegs 1 0xFF#8 2 1#8 3#8 start).v[1].toNat = 255 ∧ (withRegs 1 0xFF#8 2 1#8 3#8 start).v[2].toNat = 1 := by decide

theorem witness_FlagRegisterAsOperandTable : (1 : Reg) ≠ regF ∧
    (withRegs 1 0x0A#8 2 0#8 3#8 start).v[(1 : Reg).val].toNat = 10 ∧
    (withRegs 1 0x0A#8 2 0#8 3#8 start).v[15].toNat = 3 := by decide

theorem witness_DecimalDigitsAreStoredOrNothingIs : Memory.wf atTop.mem ∧
    ({ atTop with i := 0x0FFE#16 } : State).i.toNat + 2 > 4095 ∧
    ({ atTop with i := 0x0FFD#16 } : State).i.toNat + 2 ≤ 4095 := by decide

/-- For the stores and the loads of V0..V2, and for the dump followed by the load. -/
theorem witness_RegistersAreStoredAndLoaded : Memory.wf atTop.mem ∧
    ({ atTop with i := 0x0FFE#16 } : State).i.toNat + (2 : Reg).val > 4095 ∧
    ({ atTop with i := 0x0FFD#16 } : State).i.toNat + (2 : Reg).val ≤ 4095 ∧ (3 : Reg).val > (2 : Reg).val := by decide

/-- V0 = `x`, V1 = `y`, I = `i`. -/
def drawAt (x y : Byte) (i : Word) : State := withRegs 0 x 1 y 9#8 { start with i := i }

theorem witness_DrawChecksMemoryThenFootprint :
    (0 < (2 : Height).val ∧ (drawAt 60#8 0#8 0x0FFF#16).i.toNat + (2 : Height).val - 1 > 4095) ∧
    (0 < (1 : Height).val ∧ (drawAt 57#8 0#8 0x0FFF#16).i.toNat + (1 : Height).val - 1 ≤ 4095 ∧
      (drawAt 57#8 0#8 0x0FFF#16).v[(0 : Reg).val].toNat > 56) ∧
    (0 < (5 : Height).val ∧ (drawAt 0#8 28#8 0x0300#16).i.toNat + (5 : Height).val - 1 ≤ 4095 ∧
      (drawAt 0#8 28#8 0x0300#16).v[(1 : Reg).val].toNat + (5 : Height).val > 32) ∧
    DrawIsInside (drawAt 56#8 31#8 0x0FFF#16) 0 1 1 ∧ DrawIsInside (drawAt 200#8 200#8 0xFFFF#16) 0 1 0 := by
  unfold DrawIsInside; decide

/-- A sprite of one row, 0xC0, at I, and a frame buffer with one pixel set. -/
def spriteOnPixel (r c : Nat) : State :=
  { drawAt 0#8 0#8 0x0300#16 with mem := [(0x300, 0xC0#8)], fb := fbToggle blankFrameBuffer r c }

theorem witness_DrawXorsThePlacedSprite :
    DrawIsInside (spriteOnPixel 0 1) 0 1 1 ∧
    placedSprite (spriteOnPixel 0 1) 0 1 1 0 1 = true ∧ pixel (spriteOnPixel 0 1) 0 1 = true ∧
    ¬∃ r < 32, ∃ c < 64, placedSprite (drawAt 0#8 0#8 0x0300#16) 0 1 1 r c = true ∧
      pixel (drawAt 0#8 0#8 0x0300#16) r c = true := by
  refine ⟨by unfold DrawIsInside; decide, by decide, by decide, ?_⟩
  rintro ⟨r, -, c, -, h, -⟩
  have hz : ∀ a, memByte (drawAt 0#8 0#8 0x0300#16).mem a = 0#8 := fun _ => rfl
  simp [placedSprite, hz] at h

theorem witness_DrawTwiceRestoresFrameBuffer : (0 : Reg) ≠ regF ∧ (1 : Reg) ≠ regF ∧
    DrawIsInside (spriteOnPixel 0 1) 0 1 1 ∧
    placedSprite (spriteOnPixel 0 1) 0 1 1 0 0 = true ∧ pixel (spriteOnPixel 0 1) 0 0 = false := by
  unfold DrawIsInside; decide

theorem witness_KeySkipsTestTheSampledLevel :
    (withRegs 1 16#8 2 0#8 0#8 (start 0x8000#16)).v[1].toNat > 15 ∧
    (withRegs 1 15#8 2 0#8 0#8 (start 0x8000#16)).v[1].toNat ≤ 15 ∧
    (stepInput (start 0x8000#16)).keyHeld.getLsbD 15 = true ∧
    (stepInput (start 0x8000#16)).keyHeld.getLsbD 14 = false := by decide

theorem witness_KeyWaitHoldsOrReportsAHeldKey :
    (stepInput start).keyHeld = 0#16 ∧ (stepInput (start 0x8001#16)).keyHeld ≠ 0#16 ∧
    (stepInput (start 0x8001#16)).keyHeld.getLsbD (stepInput (start 0x8001#16)).pick.val = true ∧
    (stepInput (start 0x8000#16)).keyHeld.getLsbD (stepInput (start 0x8000#16)).pick.val = false := by decide

theorem witness_DelayTimerIsWritten : start.loadError = false := by decide

theorem witness_TickDecrementsOnlyDelayTimer :
    (start.loadError = false ∧ ({ start with dt := 1#8 } : State).dt.toNat ≠ 0) ∧
    ({ start with loadError := true } : State).loadError = true ∧ start.dt.toNat = 0 := by decide

theorem witness_FetchIsBigEndianAndBoundsChecked :
    atTop.pc.toNat ≤ 4094 ∧ ({ start with pc := 0x0FFF#16 } : State).pc.toNat = 4095 ∧
    ({ start with pc := 0x1000#16 } : State).pc.toNat ≥ 4096 := by decide

theorem witness_StepRunsTheDecodedInstruction : Fetches atTop (.ldImm 0 0x05#8) := ⟨rfl, by decide, by decide⟩

theorem witness_FetchErrorIsReported : ({ start with pc := 0x0FFF#16 } : State).loadError = false ∧
    ({ start with pc := 0x0FFF#16 } : State).pc.toNat ≥ 4095 := by decide

theorem witness_UnknownWordIsSkippedAndReported : (at200 0x5341).loadError = false ∧
    fetch (at200 0x5341) = .ok 0x5341#16 ∧ decodeWord 0x5341#16 = none := ⟨rfl, rfl, by decide⟩

theorem witness_LoadErrorBlocksTheMachine : (resetRom (List.replicate 3585 0#8)).loadError = true := by
  unfold resetRom
  rw [if_pos (by rw [List.length_replicate]; decide)]

theorem witness_DisplayFlagTellsWhetherTheStepDrew :
    (∃ t, step (at200 0x00E0) = .next t ∧ t.displayChanged = true) ∧ Fetches (at200 0x00E0) .cls ∧
    (at200 0x00E0).loadError = false := ⟨⟨_, rfl, by decide⟩, ⟨rfl, by decide, by decide⟩, rfl⟩

/-- For the precise report and for its repetition. -/
theorem witness_FatalStep : (at200 0x00EE).loadError = false ∧
    (∃ t, step (at200 0x00EE) = .next t ∧ t.result.fatal = true) ∧
    ∀ rom, Event.reset rom ∉ [Event.tick60, .step 0xFFFF#16 0x55#8 3, .tick60] := by
  refine ⟨rfl, ⟨_, rfl, by decide⟩, ?_⟩
  intro rom
  simp

theorem witness_OnlyListedInstructionsRaise :
    (∃ t, exec .ret start = .next t ∧ t.result ≠ .ok) ∧
    (∃ t, exec (.call 0#12) { start with sp := 16 } = .next t ∧ t.result ≠ .ok) ∧
    (∃ t, exec (.drw 0 1 1) (drawAt 57#8 0#8 0#16) = .next t ∧ t.result ≠ .ok) ∧
    (∃ t, exec (.skp 0) (drawAt 16#8 0#8 0#16) = .next t ∧ t.result ≠ .ok) ∧
    (∃ t, exec (.ldRegs 0) (drawAt 0#8 0#8 0x1000#16) = .next t ∧ t.result ≠ .ok) :=
  ⟨⟨_, rfl, by decide⟩, ⟨_, rfl, by decide⟩, ⟨_, rfl, by decide⟩, ⟨_, rfl, by decide⟩, ⟨_, rfl, by decide⟩⟩

theorem witness_OnlyListedInstructionsWriteEachElement :
    (∃ t, exec (.stRegs 0) (drawAt 1#8 0#8 0x0300#16) = .next t ∧ t.mem ≠ (drawAt 1#8 0#8 0x0300#16).mem) ∧
    (∃ t, exec .cls (spriteOnPixel 0 0) = .next t ∧ pixel t 0 0 ≠ pixel (spriteOnPixel 0 0) 0 0) ∧
    (∃ t, exec (.call 0x300#12) start = .next t ∧ t.stack ≠ start.stack ∧ t.sp ≠ start.sp) ∧
    (∃ t, exec (.ldDtVx 0) (drawAt 1#8 0#8 0#16) = .next t ∧ t.dt ≠ (drawAt 1#8 0#8 0#16).dt) ∧
    (∃ t, exec (.ldI 0x300#12) start = .next t ∧ t.i ≠ start.i) :=
  ⟨⟨_, rfl, by decide⟩, ⟨_, rfl, by decide⟩, ⟨_, rfl, by decide⟩, ⟨_, rfl, by decide⟩, ⟨_, rfl, by decide⟩⟩

theorem witness_OnlyFlagWritersOrDestinationsChangeVF :
    (∃ t, exec (.shr 0 1) (drawAt 1#8 0#8 0#16) = .next t ∧ t.v[15] ≠ (drawAt 1#8 0#8 0#16).v[15]) ∧
    (∃ t, exec (.drw 0 1 0) (drawAt 1#8 0#8 0#16) = .next t ∧ t.v[15] ≠ (drawAt 1#8 0#8 0#16).v[15]) ∧
    (∃ t, exec (.ldRegs 15) (drawAt 1#8 0#8 0#16) = .next t ∧ t.v[15] ≠ (drawAt 1#8 0#8 0#16).v[15]) :=
  ⟨⟨_, rfl, by decide⟩, ⟨_, rfl, by decide⟩, ⟨_, rfl, by decide⟩⟩

/-- Two inputs that differ in everything but what the instruction may read. -/
theorem witness_InputsReachOnlyTheirReaders :
    ((∃ x kk, Instr.rnd 0 1#8 = .rnd x kk) ∧
      (StepInput.mk 1 2#16 7#8 3).rnd = (StepInput.mk 4 5#16 7#8 6).rnd) ∧
    ((∃ x, Instr.skp 0 = .skp x ∨ Instr.skp 0 = .sknp x ∨ Instr.skp 0 = .ldVxK x) ∧
      (StepInput.mk 1 2#16 7#8 3).keyHeld = (StepInput.mk 4 2#16 9#8 3).keyHeld ∧
      (StepInput.mk 1 2#16 7#8 3).pick = (StepInput.mk 4 2#16 9#8 3).pick) :=
  ⟨⟨⟨0, 1#8, rfl⟩, rfl⟩, ⟨⟨0, .inl rfl⟩, rfl, rfl⟩⟩

theorem witness_DelayTimerFallsByTicksUnlessWritten :
    (∃ t, step (at200 0x6005 { start with dt := 9#8 }) = .next t) ∧ (at200 0x6005).loadError = false ∧
    ∀ x, ¬Fetches (at200 0x6005 { start with dt := 9#8 }) (.ldDtVx x) := by
  refine ⟨⟨_, rfl⟩, rfl, ?_⟩
  intro x h
  have := h.2.2
  rw [show decodeWord _ = some (Instr.ldImm 0 0x05#8) from by decide] at this
  cases this

/-- V0 = 6A, V1 = 42, I = 0202 (vector M22) and, for FX33, V0 = 6A. -/
theorem witness_StoreIsSeenByTheNextFetch :
    Memory.wf (at200 0xF155 (drawAt 0x6A#8 0x42#8 0x0202#16)).mem ∧
    (at200 0xF155 (drawAt 0x6A#8 0x42#8 0x0202#16)).i.toNat = (at200 0xF155 (drawAt 0x6A#8 0x42#8 0x0202#16)).pc.toNat + 2 ∧
    (∃ t, step (at200 0xF155 (drawAt 0x6A#8 0x42#8 0x0202#16)) = .next t) ∧
    Fetches (at200 0xF155 (drawAt 0x6A#8 0x42#8 0x0202#16)) (.stRegs 1) ∧
    Fetches (at200 0xF033 (drawAt 0x6A#8 0x42#8 0x0202#16)) (.ldB 0) :=
  ⟨by decide, by decide, ⟨_, rfl⟩, ⟨rfl, by decide, by decide⟩, ⟨rfl, by decide, by decide⟩⟩

theorem witness_ResetGivesEveryElementItsValue :
    (List.replicate 3584 0x60#8).length ≤ 3584 ∧ (List.replicate 3585 0x60#8).length > 3584 := by
  rw [List.length_replicate, List.length_replicate]; decide

/-- For the two invariants: one subroutine deep, about to run a jump to an even address. -/
def deep : State := at200 0x1300 { start with sp := 1, stack := start.stack.set 0 0x0FFE#16 }

theorem witness_Invariants :
    InBounds deep ∧ EvenAndHigh deep ∧ (∀ i, Fetches deep i → TargetIsGood deep i) ∧ ∃ t, step deep = .next t := by
  refine ⟨by unfold InBounds; decide, by unfold EvenAndHigh GoodTarget; decide, ?_, ⟨_, rfl⟩⟩
  intro i h
  have := h.2.2
  rw [show decodeWord _ = some (Instr.jp 0x300#12) from by decide] at this
  cases this
  refine ⟨?_, ?_, ?_⟩ <;> intro nnn hn <;> cases hn
  unfold GoodTarget; decide

theorem witness_DecodeOfEncodeIsTheInstruction : (Instr.sys 0x0E1#12).wellFormed = true := by decide

theorem witness_EncodeOfDecodeIsTheWord : decodeWord 0xDAB5#16 = some (.drw 10 11 5) := by decide

theorem witness_MatchingWordDecodesToItsRow :
    0xFA65#16 &&& (opcodeRow (.ldRegs 0)).1 = (opcodeRow (.ldRegs 0)).2 ∧
    0x0123#16 &&& (opcodeRow (.sys 0#12)).1 = (opcodeRow (.sys 0#12)).2 ∧
    0x0123#16 ≠ 0x00E0#16 ∧ 0x0123#16 ≠ 0x00EE#16 := by decide

end Sys2Proof.Tests
end

/-! PROOFS. Totality of the machine (93_implementation_defined.md, 60_exceptions.md R181). -/

namespace Sys2Proof.Machine

/-- A Step never stops: each of the four things it can do leaves a next state (60_exceptions.md R181). -/
theorem step_next (s : State) : ∃ t, step s = .next t := by
  rcases step_cases s with ⟨-, h⟩ | ⟨-, _, -, h⟩ | ⟨-, _, -, -, h⟩ | ⟨-, _, _, _, -, -, -, h⟩
  case inl => exact ⟨_, h⟩                -- blocked by load_error
  case inr.inl => exact ⟨_, h⟩            -- the fetch's error
  case inr.inr.inl => exact ⟨_, h⟩        -- an Unknown word
  case inr.inr.inr => exact ⟨_, h⟩        -- the decoded instruction

/-- No event at the ports stops the machine (00_scope.md R7): Reset and Tick60 are functions of the state, and a Step event is
a Step. -/
theorem runEvent_next (e : Event) (s : State) : ∃ t, runEvent e s = .next t := by
  cases e with
  | reset rom => exact ⟨_, rfl⟩
  | step keyHeld rnd pick => exact step_next _
  | tick60 => exact ⟨_, rfl⟩

/-- Settles O39: a Step by the inversion of `step`, every other event by its definition. -/
theorem everyEventHasANextState : Obligations.EveryEventHasANextState :=
  ⟨step_next, runEvent_next⟩

end Sys2Proof.Machine

/-! PROOFS. What an instruction may write, and what it may read of a Step's inputs: the access matrix of 10_state.md R38
and the writers of VF of R21. -/

namespace Sys2Proof.Machine

/-! ### What an instruction writes -/

/-- The V registers an instruction may write: its destination, VF where it writes a flag, V0 to V[X] for FX65
(10_state.md R21). -/
def IsDest : Instr → Reg → Prop
  | .ldImm x _, r | .addImm x _, r | .rnd x _, r | .ldReg x _, r | .orReg x _, r | .andReg x _, r | .xorReg x _, r
  | .ldVxDt x, r | .ldVxK x, r => r = x
  | .addReg x _, r | .sub x _, r | .shr x _, r | .subn x _, r | .shl x _, r => r = x ∨ r = regF
  | .drw _ _ _, r => r = regF
  | .ldRegs x, r => r ≤ x
  | _, _ => False

/-- `Writes i s u`: `u` is `s` with a change that instruction `i` may make, pc, display_changed and the outputs aside
(10_state.md R38, column "written by"). -/
inductive Writes : Instr → State → State → Prop
  | nothing (i : Instr) (s : State) : Writes i s s
  | regs {i : Instr} {s : State} {v : Vector Byte 16} (h : ∀ r : Reg, ¬IsDest i r → v[r.val] = s.v[r.val]) :
      Writes i s { s with v := v }
  | index {i : Instr} (w : Word) (s : State) (h : (∃ nnn, i = .ldI nnn) ∨ ∃ x, i = .addI x ∨ i = .ldF x) :
      Writes i s { s with i := w }
  | timer (x : Reg) (b : Byte) (s : State) : Writes (.ldDtVx x) s { s with dt := b }
  | store {i : Instr} (m : Memory) (s : State) (h : ∃ x, i = .ldB x ∨ i = .stRegs x) : Writes i s { s with mem := m }
  | clear (fb : FrameBuffer) (s : State) : Writes .cls s { s with fb := fb }
  | draw (x y : Reg) (n : Height) (fb : FrameBuffer) (flag : Byte) (s : State) :
      Writes (.drw x y n) s { writeV regF flag s with fb := fb }
  | push (nnn : Imm12) (stack : Vector Word 16) (sp : Fin 17) (s : State) :
      Writes (.call nnn) s { s with stack := stack, sp := sp }
  | pop (sp : Fin 17) (s : State) : Writes .ret s { s with sp := sp }

/-- One register written, a destination of the instruction. -/
theorem Writes.reg {i : Instr} {x : Reg} (b : Byte) (s : State) (h : IsDest i x) : Writes i s (writeV x b s) :=
  .regs fun r hr => writeV_other x r b s fun e => hr (e ▸ h)

/-- V0 to V[X] loaded by FX65. -/
theorem Writes.loadRegs (x : Reg) (m : Memory) (base : Nat) (s : State) :
    Writes (.ldRegs x) s { s with v := loadRegs m base (x.val + 1) s.v } :=
  .regs fun r hr => by
    have hrx : ¬r.val < x.val + 1 := fun h => hr (Fin.le_def.2 (by omega))
    rw [getElem_loadRegs, if_neg hrx]

/-- `t` is `u` but for pc, display_changed and the outputs, which every Step may change. -/
def EndsAs (u t : State) : Prop :=
  t = { u with pc := t.pc, displayChanged := t.displayChanged, result := t.result, info := t.info }

/-- A flag-writing instruction that has its result register and VF as destinations changes no other. -/
theorem writes_of_flagThenResult {i : Instr} {x : Reg} {flag : Byte} {res : State → Byte} {s t : State}
    (hx : IsDest i x) (hF : IsDest i regF) (h : complete (advance (flagThenResult x flag res s)) = .next t) :
    ∃ u, Writes i s u ∧ EndsAs u t := by
  cases h
  refine ⟨flagThenResult x flag res s, .regs fun r hr => ?_, rfl⟩
  have hrx : r ≠ x := fun e => hr (e ▸ hx)
  have hrF : r ≠ regF := fun e => hr (e ▸ hF)
  exact keepsRegsExcept_flagThenResult rfl r (by simp [hrx, hrF])

/-- Every instruction makes only a change of its own kind; where it raises, it makes none (40_cycle.md R96). -/
theorem exec_writes {i : Instr} {s t : State} (h : exec i s = .next t) : ∃ u, Writes i s u ∧ EndsAs u t := by
  cases i
  case cls => cases h; exact ⟨_, .clear _ s, rfl⟩
  case ret =>
    by_cases hp : 0 < s.sp.val
    · rw [exec, execRet_of_pos s hp] at h; cases h; exact ⟨_, .pop _ s, rfl⟩
    · rw [exec, execRet_empty s (by omega)] at h; cases h; exact ⟨_, .nothing _ s, rfl⟩
  case call nnn =>
    by_cases hp : s.sp.val < 16
    · rw [exec, execCall_of_lt nnn s hp] at h; cases h; exact ⟨_, .push nnn _ _ s, rfl⟩
    · rw [exec, execCall_full nnn s (by omega)] at h; cases h; exact ⟨_, .nothing _ s, rfl⟩
  case drw x y n =>
    rcases execDrw_cases x y n s with ⟨f, -, hf⟩ | ⟨-, f, -, hf⟩ | ⟨-, -, hf⟩ <;> rw [exec, hf] at h <;> cases h
    · exact ⟨_, .nothing _ s, rfl⟩
    · exact ⟨_, .nothing _ s, rfl⟩
    · exact ⟨_, .draw x y n _ _ s, rfl⟩
  case ldB x =>
    rcases storeAtI_cases (decimalDigits (readV s x)) s with ⟨f, -, hf⟩ | ⟨-, hf⟩ <;>
      rw [exec, execLdB, hf] at h <;> cases h
    · exact ⟨_, .nothing _ s, rfl⟩
    · exact ⟨_, .store _ s ⟨x, .inl rfl⟩, rfl⟩
  case stRegs x =>
    rcases storeAtI_cases (regBytes s.v x) s with ⟨f, -, hf⟩ | ⟨-, hf⟩ <;> rw [exec, execStRegs, hf] at h <;> cases h
    · exact ⟨_, .nothing _ s, rfl⟩
    · exact ⟨_, .store _ s ⟨x, .inr rfl⟩, rfl⟩
  case ldRegs x =>
    cases hf : rangeFault s.i.toNat (x.val + 1) with
    | some f => rw [exec, execLdRegs_raises x s hf] at h; cases h; exact ⟨_, .nothing _ s, rfl⟩
    | none => rw [exec, execLdRegs_ok x s hf] at h; cases h; exact ⟨_, .loadRegs x _ _ s, rfl⟩
  case skp x =>
    cases hf : keyFault (readV s x) with
    | some f => rw [exec, execSkp_raises x s hf] at h; cases h; exact ⟨_, .nothing _ s, rfl⟩
    | none => rw [exec, execSkp_ok x s hf] at h; cases h; exact ⟨_, .nothing _ s, rfl⟩
  case sknp x =>
    cases hf : keyFault (readV s x) with
    | some f => rw [exec, execSknp_raises x s hf] at h; cases h; exact ⟨_, .nothing _ s, rfl⟩
    | none => rw [exec, execSknp_ok x s hf] at h; cases h; exact ⟨_, .nothing _ s, rfl⟩
  case ldVxK x =>
    rw [exec, execLdVxK, complete_next_iff] at h; subst h
    split
    · exact ⟨_, .nothing _ s, rfl⟩
    · exact ⟨_, .reg _ s rfl, rfl⟩
  case ldI nnn => cases h; exact ⟨_, .index _ s (.inl ⟨nnn, rfl⟩), rfl⟩
  case addI x => cases h; exact ⟨_, .index _ s (.inr ⟨x, .inl rfl⟩), rfl⟩
  case ldF x => cases h; exact ⟨_, .index _ s (.inr ⟨x, .inr rfl⟩), rfl⟩
  case ldDtVx x => cases h; exact ⟨_, .timer x _ s, rfl⟩
  case ldImm | addImm | rnd | ldReg | orReg | andReg | xorReg | ldVxDt => cases h; exact ⟨_, .reg _ s rfl, rfl⟩
  case addReg | sub | shr | subn | shl => exact writes_of_flagThenResult (.inl rfl) (.inr rfl) h
  case sys | jp | jpV0 | ldStVx | seImm | sneImm | seReg | sneReg => cases h; exact ⟨_, .nothing _ s, rfl⟩

/-- Settles O45: each column is read off the kinds of change an instruction may make. -/
theorem onlyListedInstructionsWriteEachElement : Obligations.OnlyListedInstructionsWriteEachElement := by
  intro i s t h
  obtain ⟨u, hw, ht⟩ := exec_writes h
  rw [ht]
  cases hw
  case index hx => simp [hx]
  case store hx => simp [hx]
  all_goals simp

/-- A register that is no destination of the instruction keeps its value. -/
theorem exec_keeps_reg {i : Instr} {s t : State} (h : exec i s = .next t) {r : Reg} (hr : ¬IsDest i r) :
    t.v[r.val] = s.v[r.val] := by
  obtain ⟨u, hw, ht⟩ := exec_writes h
  have hv : t.v = u.v := by rw [ht]
  rw [show t.v[r.val] = u.v[r.val] by simp only [hv]]
  cases hw
  case regs hk => exact hk r hr
  case draw x y n fb flag => exact writeV_other regF r flag s hr
  all_goals rfl

/-- The instructions that have VF among their destinations (10_state.md R21). -/
theorem isDest_regF {i : Instr} (h : IsDest i regF) :
    (∃ x y, i = .addReg x y ∨ i = .sub x y ∨ i = .shr x y ∨ i = .subn x y ∨ i = .shl x y) ∨
    (∃ x y n, i = .drw x y n) ∨
    (∃ kk, i = .ldImm regF kk ∨ i = .addImm regF kk ∨ i = .rnd regF kk) ∨
    (∃ y, i = .ldReg regF y ∨ i = .orReg regF y ∨ i = .andReg regF y ∨ i = .xorReg regF y) ∨
    i = .ldVxDt regF ∨ i = .ldVxK regF ∨ i = .ldRegs regF := by
  cases i
  case addReg | sub | shr | subn | shl | drw => simp
  case ldImm | addImm | rnd | ldReg | orReg | andReg | xorReg | ldVxDt | ldVxK => cases h; simp
  case ldRegs x =>
    have hx : x = regF := le_antisymm (Fin.le_last x) h
    simp [hx]
  all_goals exact h.elim

/-- Settles O46: a register that changes is a destination. -/
theorem onlyFlagWritersOrDestinationsChangeVF : Obligations.OnlyFlagWritersOrDestinationsChangeVF := by
  intro i s t h hv
  by_contra hc
  exact hv (exec_keeps_reg (r := regF) h fun hd => hc (isDest_regF hd))

/-! ### What an instruction reads of the Step's inputs -/

/-- `key_held` is a part of the Step's inputs. -/
theorem keyHeld_congr {s t : State} (h : (stepInput t).keyHeld = (stepInput s).keyHeld) : keyHeld t = keyHeld s :=
  funext fun k => by rw [keyHeld, h, keyHeld]

/-- A store does not read the inputs. -/
theorem storeAtI_setInputs (bs : List Byte) (s : State) (ins : List StepInput) :
    ∃ t, storeAtI bs s = .next t ∧ storeAtI bs { s with inputs := ins } = .next { t with inputs := ins } := by
  simp only [storeAtI]
  cases rangeFault s.i.toNat bs.length with
  | some f => exact ⟨_, rfl, rfl⟩
  | none => exact ⟨_, rfl, rfl⟩

/-- A draw does not read the inputs. -/
theorem execDrw_setInputs (x y : Reg) (n : Height) (s : State) (ins : List StepInput) :
    ∃ t, execDrw x y n s = .next t ∧ execDrw x y n { s with inputs := ins } = .next { t with inputs := ins } := by
  simp only [execDrw, readV_def]
  cases rangeFault s.i.toNat n.val with
  | some f => exact ⟨_, rfl, rfl⟩
  | none =>
    cases footprintFault s.v[x.val] s.v[y.val] n.val with
    | some f => exact ⟨_, rfl, rfl⟩
    | none => exact ⟨_, rfl, rfl⟩

/-- With other inputs that look the same to the instruction, it does the same and carries them along (10_state.md R38, column
"read by", rows rnd and key_held). -/
theorem exec_setInputs {i : Instr} {s : State} {ins : List StepInput}
    (hr : (∃ x kk, i = .rnd x kk) → (stepInput { s with inputs := ins }).rnd = (stepInput s).rnd)
    (hk : (∃ x, i = .skp x ∨ i = .sknp x ∨ i = .ldVxK x) →
      (stepInput { s with inputs := ins }).keyHeld = (stepInput s).keyHeld ∧
      (stepInput { s with inputs := ins }).pick = (stepInput s).pick) :
    ∃ t, exec i s = .next t ∧ exec i { s with inputs := ins } = .next { t with inputs := ins } := by
  cases i
  case rnd x kk => exact ⟨_, rfl, by rw [exec, execRnd, hr ⟨x, kk, rfl⟩]; rfl⟩
  case ldVxK x =>
    obtain ⟨hheld, hpick⟩ := hk ⟨x, .inr (.inr rfl)⟩
    refine ⟨_, rfl, ?_⟩
    simp only [exec, execLdVxK, pickKey, hheld, hpick]
    split <;> rfl
  case skp x =>
    have hheld := keyHeld_congr (hk ⟨x, .inl rfl⟩).1
    cases hf : keyFault (readV s x) with
    | some f => exact ⟨_, execSkp_raises x s hf, execSkp_raises x { s with inputs := ins } hf⟩
    | none => exact ⟨_, execSkp_ok x s hf, by rw [exec, execSkp_ok x { s with inputs := ins } hf, hheld]; rfl⟩
  case sknp x =>
    have hheld := keyHeld_congr (hk ⟨x, .inr (.inl rfl)⟩).1
    cases hf : keyFault (readV s x) with
    | some f => exact ⟨_, execSknp_raises x s hf, execSknp_raises x { s with inputs := ins } hf⟩
    | none => exact ⟨_, execSknp_ok x s hf, by rw [exec, execSknp_ok x { s with inputs := ins } hf, hheld]; rfl⟩
  case ret =>
    by_cases hp : 0 < s.sp.val
    · exact ⟨_, execRet_of_pos s hp, execRet_of_pos { s with inputs := ins } hp⟩
    · have h0 : s.sp.val = 0 := by omega
      exact ⟨_, execRet_empty s h0, execRet_empty { s with inputs := ins } h0⟩
  case call nnn =>
    by_cases hp : s.sp.val < 16
    · exact ⟨_, execCall_of_lt nnn s hp, execCall_of_lt nnn { s with inputs := ins } hp⟩
    · have h16 : s.sp.val = 16 := by omega
      exact ⟨_, execCall_full nnn s h16, execCall_full nnn { s with inputs := ins } h16⟩
  case ldRegs x =>
    cases hf : rangeFault s.i.toNat (x.val + 1) with
    | some f => exact ⟨_, execLdRegs_raises x s hf, execLdRegs_raises x { s with inputs := ins } hf⟩
    | none => exact ⟨_, execLdRegs_ok x s hf, execLdRegs_ok x { s with inputs := ins } hf⟩
  case ldB x => exact storeAtI_setInputs (decimalDigits (readV s x)) s ins
  case stRegs x => exact storeAtI_setInputs (regBytes s.v x) s ins
  case drw x y n => exact execDrw_setInputs x y n s ins
  all_goals exact ⟨_, rfl, rfl⟩

/-- Settles O47: the two inputs are heads of two lists that look the same to the instruction. -/
theorem inputsReachOnlyTheirReaders : Obligations.InputsReachOnlyTheirReaders := by
  intro i s a b rest hr hk
  obtain ⟨t, ht, hu⟩ := exec_setInputs (i := i) (s := { s with inputs := a :: rest }) (ins := b :: rest)
    (fun h => (hr h).symm) (fun h => ⟨(hk h).1.symm, (hk h).2.symm⟩)
  exact ⟨t, _, ht, hu, rfl⟩

end Sys2Proof.Machine

/-! PROOFS. Memory as the instructions see it: what FX55 stores FX65 loads back (20_memory.md R66), and what a store leaves at
the next pc is the word the next Step fetches (R63). -/

namespace Sys2Proof.Machine

/-! ### Reading back a stored range -/

/-- A byte of a stored range, by its place in the range. -/
theorem memByte_storeBytes_add {m : Memory} (hm : Memory.wf m) {a : Nat} {bs : List Byte}
    (h : a + bs.length ≤ Config.memSize) {k : Nat} (hk : k < bs.length) :
    memByte (storeBytes m a bs) (a + k) = bs.getD k 0#8 := by
  rw [memByte_storeBytes hm a bs h, if_pos (by omega), Nat.add_sub_cancel_left]

/-- Stored registers, read from memory. -/
theorem memByte_storeBytes_regBytes {m : Memory} (hm : Memory.wf m) {a : Nat} {x : Reg} (h : a + x.val ≤ 4095)
    (v : Vector Byte 16) {k : Reg} (hk : k.val ≤ x.val) :
    memByte (storeBytes m a (regBytes v x)) (a + k.val) = v[k.val] := by
  have hlen := length_regBytes v x
  rw [memByte_storeBytes_add hm (by simp only [Config.memSize]; omega) (by omega), getD_regBytes v x k hk]

/-- FX65 on stored registers gives them back up to V[X] and keeps the others (44_index_memory.md R144, R145). -/
theorem getElem_loadRegs_storeBytes_regBytes {m : Memory} (hm : Memory.wf m) {a : Nat} {x : Reg} (h : a + x.val ≤ 4095)
    (v w : Vector Byte 16) (k : Reg) :
    (loadRegs (storeBytes m a (regBytes v x)) a (x.val + 1) w)[k.val] = if k.val ≤ x.val then v[k.val] else w[k.val] := by
  rw [getElem_loadRegs]
  by_cases hk : k.val ≤ x.val
  · rw [if_pos (by omega), if_pos hk, memByte_storeBytes_regBytes hm h v hk]
  · rw [if_neg (by omega), if_neg hk]

/-- FX55 with its range in memory. -/
theorem exec_stRegs_ok {x : Reg} {s : State} (h : s.i.toNat + x.val ≤ 4095) :
    exec (.stRegs x) s = complete (advance { s with mem := storeBytes s.mem s.i.toNat (regBytes s.v x) }) :=
  storeAtI_ok (by rw [length_regBytes]; simp only [Config.memSize]; omega)

/-- FX65 with its range in memory. -/
theorem exec_ldRegs_ok {x : Reg} {s : State} (h : s.i.toNat + x.val ≤ 4095) :
    exec (.ldRegs x) s = complete (advance { s with v := loadRegs s.mem s.i.toNat (x.val + 1) s.v }) :=
  execLdRegs_ok x s (rangeFault_ok (by omega))

/-- Settles O23: the load reads the bytes the store left, at the same I. -/
theorem dumpThenLoadRestoresRegisters : Obligations.DumpThenLoadRestoresRegisters := by
  intro x s w hm h
  have hload := getElem_loadRegs_storeBytes_regBytes hm h s.v w
  refine ⟨_, _, exec_stRegs_ok h, exec_ldRegs_ok h, ⟨rfl, rfl⟩, fun k hk => ?_, fun k hk => ?_⟩
  · exact (hload k).trans (if_pos hk)
  · exact (hload k).trans (if_neg (by omega))

/-! ### Fetching a stored word -/

/-- A Step that stores two or more bytes at pc + 2 leaves the first two as the word of the next fetch (20_memory.md R53,
R63). -/
theorem fetch_of_store_at_next_pc {s t : State} {i : Instr} {bs : List Byte} (hm : Memory.wf s.mem)
    (hi : s.i.toNat = s.pc.toNat + 2) (hst : step s = .next t) (hf : Fetches s i)
    (hexec : exec i (beginStep s) = storeAtI bs (beginStep s))
    (h2 : 2 ≤ bs.length) (hin : s.i.toNat + bs.length ≤ Config.memSize) :
    fetch t = .ok (wordOfBytes (bs.getD 0 0#8) (bs.getD 1 0#8)) := by
  obtain ⟨u, hu, hs⟩ := step_of_fetches hf
  rw [hexec, storeAtI_ok (s := beginStep s) hin, complete_next_iff] at hu
  rw [hs] at hst
  cases hst
  subst hu
  have hpc : (s.pc + 2#16).toNat = s.i.toNat := by
    rw [toNat_add_two (by simp only [Config.memSize] at hin; omega), hi]
  have hhi := memByte_storeBytes_add hm hin (k := 0) (by omega)
  have hlo := memByte_storeBytes_add hm hin (k := 1) (by omega)
  rw [Nat.add_zero] at hhi
  rw [fetch_ok (by simp only [consumeInput_pc, advance_pc, beginStep_pc, hpc]; omega)]
  simp only [consumeInput_pc, consumeInput_mem, advance_pc, advance_mem, beginStep_pc, beginStep_mem, beginStep_i, hpc,
    hhi, hlo]

/-- The word of the hundreds and the tens of a byte (44_index_memory.md R143). -/
theorem wordOfBytes_decimalDigits_toNat (b : Byte) :
    (wordOfBytes ((decimalDigits b).getD 0 0#8) ((decimalDigits b).getD 1 0#8)).toNat =
      b.toNat / 100 * 256 + b.toNat / 10 % 10 := by
  have hb := b.isLt
  have hhundreds : ((decimalDigits b).getD 0 0#8).toNat = b.toNat / 100 := by
    simp only [decimalDigits, List.getD_cons_zero, BitVec.toNat_ofNat]; omega
  have htens : ((decimalDigits b).getD 1 0#8).toNat = b.toNat / 10 % 10 := by
    simp only [decimalDigits, List.getD_cons_succ, List.getD_cons_zero, BitVec.toNat_ofNat]; omega
  rw [wordOfBytes_toNat, hhundreds, htens]

/-- Settles O49: both instructions store at I = pc + 2, and the next fetch reads the first two bytes of what they store. -/
theorem storeIsSeenByTheNextFetch : Obligations.StoreIsSeenByTheNextFetch := by
  intro s t x hm hi hst
  refine ⟨fun hf hx hin => ?_, fun hf hin => ⟨_, ?_, wordOfBytes_decimalDigits_toNat s.v[x.val]⟩⟩
  · have hlen := length_regBytes s.v x
    rw [fetch_of_store_at_next_pc (bs := regBytes s.v x) hm hi hst hf rfl (by omega)
      (by simp only [Config.memSize]; omega)]
    have h0 : (regBytes s.v x).getD 0 0#8 = s.v[0] := getD_regBytes s.v x 0 (Nat.zero_le _)
    have h1 : (regBytes s.v x).getD 1 0#8 = s.v[1] := getD_regBytes s.v x 1 hx
    rw [h0, h1]
  · have hlen : (decimalDigits s.v[x.val]).length = 3 := rfl
    exact fetch_of_store_at_next_pc (bs := decimalDigits s.v[x.val]) hm hi hst hf rfl (by omega)
      (by simp only [Config.memSize]; omega)

end Sys2Proof.Machine

/-! PROOFS. Encoding: the decoder and the encoder are inverse to each other, the opcode map and the table of Unknown words
say what the decoder does, and a Step over an Unknown word skips it (30_encoding.md R70 to R78). -/

namespace Sys2Proof

/-! ### The fields of an encoded word (30_encoding.md R71, R72) -/

theorem fieldF_eq_of_toNat {op : Word} {f : Nat} (h : op.toNat / 4096 = f) : fieldF op = BitVec.ofNat 4 f := by
  have := op.isLt
  apply BitVec.eq_of_toNat_eq
  rw [fieldF_toNat, BitVec.toNat_ofNat]; omega

theorem fieldF_wordNNN {f : Nat} (hf : f < 16) (nnn : Imm12) : fieldF (wordNNN f nnn) = BitVec.ofNat 4 f := by
  have := nnn.isLt
  exact fieldF_eq_of_toNat (by rw [wordNNN_toNat hf]; omega)

theorem fieldNNN_wordNNN {f : Nat} (hf : f < 16) (nnn : Imm12) : fieldNNN (wordNNN f nnn) = nnn := by
  have := nnn.isLt
  apply BitVec.eq_of_toNat_eq
  rw [fieldNNN_toNat, wordNNN_toNat hf]; omega

theorem fieldF_wordXKK {f : Nat} (hf : f < 16) (x : Reg) (kk : Byte) :
    fieldF (wordXKK f x kk) = BitVec.ofNat 4 f := by
  have := kk.isLt
  exact fieldF_eq_of_toNat (by rw [wordXKK_toNat hf]; omega)

theorem fieldX_wordXKK {f : Nat} (hf : f < 16) (x : Reg) (kk : Byte) : fieldX (wordXKK f x kk) = x := by
  have := kk.isLt
  apply Fin.ext
  rw [fieldX_val, wordXKK_toNat hf]; omega

theorem fieldKK_wordXKK {f : Nat} (hf : f < 16) (x : Reg) (kk : Byte) : fieldKK (wordXKK f x kk) = kk := by
  have := kk.isLt
  apply BitVec.eq_of_toNat_eq
  rw [fieldKK_toNat, wordXKK_toNat hf]; omega

section hexWord

variable {f n y : Nat} (hf : f < 16) (x : Reg) (hy : y < 16) (hn : n < 16)
include hf hy hn

theorem fieldF_hexWord : fieldF (hexWord f x.val y n) = BitVec.ofNat 4 f :=
  fieldF_eq_of_toNat (by rw [hexWord_toNat hf x.isLt hy hn]; omega)

theorem fieldX_hexWord : fieldX (hexWord f x.val y n) = x := by
  apply Fin.ext
  rw [fieldX_val, hexWord_toNat hf x.isLt hy hn]; omega

theorem fieldN_hexWord : fieldN (hexWord f x.val y n) = BitVec.ofNat 4 n := by
  apply BitVec.eq_of_toNat_eq
  rw [fieldN_toNat, hexWord_toNat hf x.isLt hy hn, BitVec.toNat_ofNat]; omega

theorem fieldKK_hexWord : fieldKK (hexWord f x.val y n) = BitVec.ofNat 8 (y * 16 + n) := by
  apply BitVec.eq_of_toNat_eq
  rw [fieldKK_toNat, hexWord_toNat hf x.isLt hy hn, BitVec.toNat_ofNat]; omega

end hexWord

theorem fieldY_hexWord {f n : Nat} (hf : f < 16) (x y : Reg) (hn : n < 16) : fieldY (hexWord f x.val y.val n) = y := by
  apply Fin.ext
  rw [fieldY_val, hexWord_toNat hf x.isLt y.isLt hn]; omega

theorem fieldHeight_hexWord {f : Nat} (hf : f < 16) (x y : Reg) (n : Height) :
    fieldHeight (hexWord f x.val y.val n.val) = n := by
  apply Fin.ext
  rw [fieldHeight_val, hexWord_toNat hf x.isLt y.isLt n.isLt]; omega

/-! ### Decoding what the encoder gives -/

/-- Different operands of format NNN make different words. -/
theorem wordNNN_ne {f : Nat} (hf : f < 16) {a b : Imm12} (h : a ≠ b) : wordNNN f a ≠ wordNNN f b := fun e =>
  h (by rw [← fieldNNN_wordNNN hf a, e, fieldNNN_wordNNN hf])

/-- SYS with a well-formed operand is neither CLS nor RET (30_encoding.md R77). -/
theorem decodeWord_encode_sys {nnn : Imm12} (h : (Instr.sys nnn).wellFormed = true) :
    decodeWord (wordNNN 0x0 nnn) = some (.sys nnn) := by
  simp only [Instr.wellFormed, Bool.and_eq_true, bne_iff_ne] at h
  obtain ⟨hcls, hret⟩ := h
  have hcls : wordNNN 0 nnn ≠ 0x00E0#16 := wordNNN_ne (by omega) hcls
  have hret : wordNNN 0 nnn ≠ 0x00EE#16 := wordNNN_ne (by omega) hret
  simp only [decodeWord, fieldF_wordNNN, fieldNNN_wordNNN, decodeFamily0, hcls, hret, if_false, Nat.reduceLT]

/-- The decoder reads back, format by format, the fields the encoder wrote (30_encoding.md R72, R74). -/
theorem decodeWord_encode {i : Instr} (h : i.wellFormed = true) : decodeWord (encode i) = some i := by
  cases i
  case cls | ret => rfl
  case sys nnn => exact decodeWord_encode_sys h
  case jp | call | ldI | jpV0 => simp only [encode, decodeWord, fieldF_wordNNN, fieldNNN_wordNNN, Nat.reduceLT]
  case seImm | sneImm | ldImm | addImm | rnd =>
    simp only [encode, decodeWord, fieldF_wordXKK, fieldX_wordXKK, fieldKK_wordXKK, Nat.reduceLT]
  case drw => simp only [encode, decodeWord, fieldF_hexWord, fieldX_hexWord, fieldY_hexWord, fieldHeight_hexWord,
    Nat.reduceLT, Fin.is_lt]
  case seReg | sneReg | ldReg | orReg | andReg | xorReg | addReg | sub | shr | subn | shl =>
    simp only [encode, decodeWord, decodeFamily8, fieldF_hexWord, fieldX_hexWord, fieldY_hexWord, fieldN_hexWord,
      Nat.reduceLT, Fin.is_lt, if_true]
  case skp | sknp | ldVxDt | ldVxK | ldDtVx | ldStVx | addI | ldF | ldB | stRegs | ldRegs =>
    simp only [encode, decodeWord, decodeFamilyE, decodeFamilyF, fieldF_hexWord, fieldX_hexWord, fieldKK_hexWord,
      Nat.reduceLT, Nat.reduceMul, Nat.reduceAdd]

/-- Settles O54: the two bytes make the encoded word again, and that word decodes to the instruction. -/
theorem decodeOfEncodeIsTheInstruction : Obligations.DecodeOfEncodeIsTheInstruction := by
  intro i rest h
  have hbytes : encodeBytes i ++ rest = highByte (encode i) :: lowByte (encode i) :: rest := rfl
  rw [hbytes, decode_bytes, decodeWord_encode h]

/-! ### Encoding what the decoder gives -/

theorem wordNNN_of_fields {op : Word} {f : Nat} (hF : fieldF op = BitVec.ofNat 4 f) : wordNNN f (fieldNNN op) = op := by
  have hF := congrArg BitVec.toNat hF
  rw [fieldF_toNat, BitVec.toNat_ofNat] at hF
  apply BitVec.eq_of_toNat_eq
  rw [wordNNN, BitVec.toNat_ofNat, fieldNNN_toNat]; omega

theorem wordXKK_of_fields {op : Word} {f : Nat} (hF : fieldF op = BitVec.ofNat 4 f) :
    wordXKK f (fieldX op) (fieldKK op) = op := by
  have hF := congrArg BitVec.toNat hF
  rw [fieldF_toNat, BitVec.toNat_ofNat] at hF
  apply BitVec.eq_of_toNat_eq
  rw [wordXKK, BitVec.toNat_ofNat, fieldX_val, fieldKK_toNat]; omega

/-- The formats with a register field and a low byte of two digits. -/
theorem hexWord_of_fields {op : Word} {f y n : Nat} (hF : fieldF op = BitVec.ofNat 4 f)
    (hyn : y * 16 + n = op.toNat % 256) : hexWord f (fieldX op).val y n = op := by
  have hF := congrArg BitVec.toNat hF
  rw [fieldF_toNat, BitVec.toNat_ofNat] at hF
  apply BitVec.eq_of_toNat_eq
  rw [hexWord, BitVec.toNat_ofNat, fieldX_val]; omega

/-- Format XY. -/
theorem hexWord_of_fieldN {op : Word} {f n : Nat} (hF : fieldF op = BitVec.ofNat 4 f)
    (hN : fieldN op = BitVec.ofNat 4 n) (hn : n < 16) : hexWord f (fieldX op).val (fieldY op).val n = op := by
  have hN := congrArg BitVec.toNat hN
  rw [fieldN_toNat, BitVec.toNat_ofNat] at hN
  exact hexWord_of_fields hF (by rw [fieldY_val]; omega)

/-- Format X. -/
theorem hexWord_of_fieldKK {op : Word} {f y n : Nat} (hF : fieldF op = BitVec.ofNat 4 f)
    (hKK : fieldKK op = BitVec.ofNat 8 (y * 16 + n)) (hyn : y * 16 + n < 256) : hexWord f (fieldX op).val y n = op := by
  have hKK := congrArg BitVec.toNat hKK
  rw [fieldKK_toNat, BitVec.toNat_ofNat] at hKK
  exact hexWord_of_fields hF (by omega)

/-- `i` is the instruction of `op`: a well-formed one whose word is `op`. -/
def IsInstrOf (op : Word) (i : Instr) : Prop := encode i = op ∧ i.wellFormed = true

/-- In family 0 the words of CLS and RET are taken out before the rest is SYS. -/
theorem isInstrOf_decodeFamily0 {op : Word} (hF : fieldF op = 0x0#4) : IsInstrOf op (decodeFamily0 op) := by
  have hop : wordNNN 0 (fieldNNN op) = op := wordNNN_of_fields hF
  unfold decodeFamily0
  split
  case isTrue hcls => exact ⟨hcls.symm, rfl⟩
  case isFalse hcls =>
    split
    case isTrue hret => exact ⟨hret.symm, rfl⟩
    case isFalse hret =>
      refine ⟨hop, ?_⟩
      simp only [Instr.wellFormed, Bool.and_eq_true, bne_iff_ne]
      exact ⟨fun e => hcls (by rw [← hop, e]; rfl), fun e => hret (by rw [← hop, e]; rfl)⟩

theorem isInstrOf_of_decodeFamily8 {op : Word} {i : Instr} (hF : fieldF op = 0x8#4) (h : decodeFamily8 op = some i) :
    IsInstrOf op i := by
  unfold decodeFamily8 at h
  split at h <;> cases h
  all_goals
    rename_i hN
    exact ⟨hexWord_of_fieldN hF hN (by omega), rfl⟩

theorem isInstrOf_of_decodeFamilyE {op : Word} {i : Instr} (hF : fieldF op = 0xE#4) (h : decodeFamilyE op = some i) :
    IsInstrOf op i := by
  unfold decodeFamilyE at h
  split at h <;> cases h
  all_goals
    rename_i hKK
    exact ⟨hexWord_of_fieldKK hF hKK (by omega), rfl⟩

theorem isInstrOf_of_decodeFamilyF {op : Word} {i : Instr} (hF : fieldF op = 0xF#4) (h : decodeFamilyF op = some i) :
    IsInstrOf op i := by
  unfold decodeFamilyF at h
  split at h <;> cases h
  all_goals
    rename_i hKK
    exact ⟨hexWord_of_fieldKK hF hKK (by omega), rfl⟩

/-- Format by format, the fields the decoder took make up the word again (30_encoding.md R72, R74). -/
theorem isInstrOf_of_decodeWord {op : Word} {i : Instr} (h : decodeWord op = some i) : IsInstrOf op i := by
  unfold decodeWord at h
  split at h
  case h_1 hF => cases h; exact isInstrOf_decodeFamily0 hF
  case h_6 hF | h_10 hF =>  -- families 5 and 9, format XY
    split at h
    case isTrue hN =>
      cases h
      exact ⟨hexWord_of_fieldN hF hN (by omega), rfl⟩
    case isFalse => cases h
  case h_9 hF => exact isInstrOf_of_decodeFamily8 hF h
  case h_15 hF => exact isInstrOf_of_decodeFamilyE hF h
  case h_16 hF => exact isInstrOf_of_decodeFamilyF hF h
  case h_2 hF | h_3 hF | h_11 hF | h_12 hF =>  -- families 1, 2, A, B, format NNN
    cases h; exact ⟨wordNNN_of_fields hF, rfl⟩
  case h_4 hF | h_5 hF | h_7 hF | h_8 hF | h_13 hF =>  -- families 3, 4, 6, 7, C, format XKK
    cases h; exact ⟨wordXKK_of_fields hF, rfl⟩
  case h_14 hF =>  -- family D, format XYN
    cases h; exact ⟨hexWord_of_fields hF (by rw [fieldY_val, fieldHeight_val]; omega), rfl⟩
  case h_17 => cases h  -- no family is left

open Laws.EncodesItsRow in
/-- The word of every instruction lies in the instruction's row of the opcode map (30_encoding.md R75). -/
theorem encode_in_row (i : Instr) : encode i &&& (opcodeRow i).1 = (opcodeRow i).2 := by
  cases i
  exacts [cls, ret, sys _, jp _, call _, seImm _ _, sneImm _ _, seReg _ _, ldImm _ _, addImm _ _, ldReg _ _, orReg _ _,
    andReg _ _, xorReg _ _, addReg _ _, sub _ _, shr _ _, subn _ _, shl _ _, sneReg _ _, ldI _, jpV0 _, rnd _ _,
    drw _ _ _, skp _, sknp _, ldVxDt _, ldVxK _, ldDtVx _, ldStVx _, addI _, ldF _, ldB _, stRegs _, ldRegs _]

/-- Settles O55: the word is the encoding of its instruction, which lies in the instruction's row. -/
theorem encodeOfDecodeIsTheWord : Obligations.EncodeOfDecodeIsTheWord := by
  intro op i h
  obtain ⟨henc, hwf⟩ := isInstrOf_of_decodeWord h
  have hrow := encode_in_row i
  rw [henc] at hrow
  exact ⟨henc, hwf, hrow⟩

/-! ### The opcode map (30_encoding.md R75) -/

theorem fieldF_of_mask_F000 {op m : Word} (h : op &&& 0xF000#16 = m) : fieldF op = fieldF m := by
  apply BitVec.eq_of_toNat_eq
  rw [← h, fieldF_toNat, fieldF_toNat, mask_F000_toNat]; omega

theorem fields_of_mask_F00F {op m : Word} (h : op &&& 0xF00F#16 = m) : fieldF op = fieldF m ∧ fieldN op = fieldN m := by
  constructor <;> apply BitVec.eq_of_toNat_eq
  · rw [← h, fieldF_toNat, fieldF_toNat, mask_F00F_toNat]; omega
  · rw [← h, fieldN_toNat, fieldN_toNat, mask_F00F_toNat]; omega

theorem fields_of_mask_F0FF {op m : Word} (h : op &&& 0xF0FF#16 = m) :
    fieldF op = fieldF m ∧ fieldKK op = fieldKK m := by
  constructor <;> apply BitVec.eq_of_toNat_eq
  · rw [← h, fieldF_toNat, fieldF_toNat, mask_F0FF_toNat]; omega
  · rw [← h, fieldKK_toNat, fieldKK_toNat, mask_F0FF_toNat]; omega

theorem decodeWord_family8 {op : Word} (hF : fieldF op = 0x8#4) : decodeWord op = decodeFamily8 op := by
  simp only [decodeWord, hF]

theorem decodeWord_familyE {op : Word} (hF : fieldF op = 0xE#4) : decodeWord op = decodeFamilyE op := by
  simp only [decodeWord, hF]

theorem decodeWord_familyF {op : Word} (hF : fieldF op = 0xF#4) : decodeWord op = decodeFamilyF op := by
  simp only [decodeWord, hF]

theorem decodeFamily0_sys {op : Word} (hcls : op ≠ 0x00E0#16) (hret : op ≠ 0x00EE#16) :
    decodeFamily0 op = .sys (fieldNNN op) := by
  rw [decodeFamily0, if_neg hcls, if_neg hret]

/-- The bits a row's mask keeps are the fields the decoder selects by (30_encoding.md R72, R74). -/
theorem map_opcodeRow_decodeWord {op : Word} {i : Instr} (h : op &&& (opcodeRow i).1 = (opcodeRow i).2)
    (hsys : (∃ nnn, i = .sys nnn) → op ≠ 0x00E0#16 ∧ op ≠ 0x00EE#16) :
    (decodeWord op).map opcodeRow = some (opcodeRow i) := by
  cases i <;> simp only [opcodeRow] at h
  case cls | ret =>
    have hop : op &&& 0xFFFF#16 = op := BitVec.and_allOnes
    rw [← hop, h]
    rfl
  case sys nnn =>
    obtain ⟨hcls, hret⟩ := hsys ⟨nnn, rfl⟩
    rw [decodeWord, fieldF_of_mask_F000 h, decodeFamily0_sys hcls hret]
    rfl
  case jp | call | ldI | jpV0 | seImm | sneImm | ldImm | addImm | rnd | drw =>
    rw [decodeWord, fieldF_of_mask_F000 h]
    rfl
  case seReg | sneReg =>
    obtain ⟨hF, hN⟩ := fields_of_mask_F00F h
    rw [decodeWord, hF, hN]
    rfl
  case ldReg | orReg | andReg | xorReg | addReg | sub | shr | subn | shl =>
    obtain ⟨hF, hN⟩ := fields_of_mask_F00F h
    rw [decodeWord_family8 hF, decodeFamily8, hN]
    rfl
  case skp | sknp =>
    obtain ⟨hF, hKK⟩ := fields_of_mask_F0FF h
    rw [decodeWord_familyE hF, decodeFamilyE, hKK]
    rfl
  case ldVxDt | ldVxK | ldDtVx | ldStVx | addI | ldF | ldB | stRegs | ldRegs =>
    obtain ⟨hF, hKK⟩ := fields_of_mask_F0FF h
    rw [decodeWord_familyF hF, decodeFamilyF, hKK]
    rfl

/-- Settles O56: the row of what the decoder gives is the instruction's. -/
theorem matchingWordDecodesToItsRow : Obligations.MatchingWordDecodesToItsRow := by
  intro op i h hsys
  exact Option.map_eq_some_iff.1 (map_opcodeRow_decodeWord h hsys)

/-! ### The Unknown words (30_encoding.md R76) -/

/-- The low nibbles left over when the nine sub-opcodes of family 8 are taken out. -/
theorem decodeFamily8_eq_none_iff (op : Word) :
    decodeFamily8 op = none ↔ (fieldN op).toNat ∈ [8, 9, 0xA, 0xB, 0xC, 0xD, 0xF] := by
  unfold decodeFamily8
  split
  case h_10 =>
    refine iff_of_true rfl ?_
    have := (fieldN op).isLt
    simp only [← BitVec.toNat_inj, BitVec.toNat_ofNat, imp_false, List.mem_cons, List.not_mem_nil] at *
    omega
  all_goals simp [*]

theorem decodeFamilyE_eq_none_iff (op : Word) : decodeFamilyE op = none ↔ (fieldKK op).toNat ∉ [0x9E, 0xA1] := by
  unfold decodeFamilyE
  split <;> simp_all [← BitVec.toNat_inj]

theorem decodeFamilyF_eq_none_iff (op : Word) :
    decodeFamilyF op = none ↔ (fieldKK op).toNat ∉ [0x07, 0x0A, 0x15, 0x18, 0x1E, 0x29, 0x33, 0x55, 0x65] := by
  unfold decodeFamilyF
  split <;> simp_all [← BitVec.toNat_inj]

/-- Settles O57: family by family, by what the decoder selects on. -/
theorem unknownWordsAreTheTable : Obligations.UnknownWordsAreTheTable := by
  intro op
  rw [← fieldF_toNat, ← fieldN_toNat, ← fieldKK_toNat]
  unfold decodeWord
  split
  case h_6 hF | h_10 hF => simp [hF, ← BitVec.toNat_inj]
  case h_9 hF => simp [hF, decodeFamily8_eq_none_iff]
  case h_15 hF => simp [hF, decodeFamilyE_eq_none_iff]
  case h_16 hF => simp [hF, decodeFamilyF_eq_none_iff]
  case h_17 =>  -- no family is left
    have := (fieldF op).isLt
    simp only [← BitVec.toNat_inj, BitVec.toNat_ofNat, imp_false] at *
    omega
  all_goals  -- the families without an Unknown word
    rename_i hF
    simp [hF]

/-- Settles O58: the decoder computes on each word. -/
theorem wordsOfEachFamilyDecode : Obligations.WordsOfEachFamilyDecode := by
  unfold Obligations.WordsOfEachFamilyDecode
  decide

end Sys2Proof

namespace Sys2Proof.Machine

/-- Settles O37: of the four things a Step can do, only the skip fits a fetched word the decoder refuses. -/
theorem unknownWordIsSkippedAndReported : Obligations.UnknownWordIsSkippedAndReported := by
  intro s op hl hf hd
  rcases step_cases s with ⟨hl', -⟩ | ⟨-, f, hf', -⟩ | ⟨-, op', hf', -, hs⟩ | ⟨-, op', i, t, hf', hd', -, -⟩
  case inl => rw [hl] at hl'; cases hl'
  case inr.inl => rw [hf] at hf'; cases hf'
  case inr.inr.inl =>
    rw [hf] at hf'; cases hf'
    refine ⟨_, hs, rfl, rfl, ?_, ?_⟩
    · simp [BitVec.toNat_add]
    · rw [beginStep_eq hl]; rfl
  case inr.inr.inr =>
    rw [hf] at hf'; cases hf'
    rw [hd] at hd'; cases hd'

end Sys2Proof.Machine

/-! PROOFS. The Step (40_cycle.md): what it fetches, that it runs what it decodes, how it reports an error, and when it raises
the display flag. -/

namespace Sys2Proof.Machine

/-! ### Fetch and decode (40_cycle.md R92, R93) -/

/-- A fetch at 4095 or above fails at the lowest address above 4095 that it reads. -/
theorem fetch_error_of_ge {s : State} (h : s.pc.toNat ≥ 4095) :
    fetch s = .error (.outOfBounds (BitVec.ofNat 16 (max s.pc.toNat 4096))) :=
  fetch_error (Nat.succ_le_succ h)

/-- Settles O34: the last pc with two bytes in memory is 4094; above it the lowest address out of memory is max(pc, 4096). -/
theorem fetchIsBigEndianAndBoundsChecked : Obligations.FetchIsBigEndianAndBoundsChecked := by
  intro s
  refine ⟨fun h => ?_, fun h => ?_, fun h => ?_⟩
  · exact ⟨_, fetch_ok (Nat.succ_lt_succ (Nat.lt_succ_of_le h)), wordOfBytes_toNat ..⟩
  · rw [fetch_error_of_ge (by omega), h]; rfl
  · rw [fetch_error_of_ge (by omega), max_eq_left h, BitVec.ofNat_toNat, BitVec.setWidth_eq]

/-- Settles O35: `beginStep` takes the ticks and clears the flag, `consumeInput` spends the inputs. -/
theorem stepRunsTheDecodedInstruction : Obligations.StepRunsTheDecodedInstruction := by
  intro s i h
  obtain ⟨t, he, hs⟩ := step_of_fetches h
  obtain ⟨hl, -⟩ := h
  obtain ⟨hinputs, hstepNo, -⟩ := exec_keeps_inputs he
  rw [← beginStep_eq hl]
  refine ⟨t, he, ?_⟩
  rw [hs, consumeInput, hinputs, hstepNo, beginStep_inputs, beginStep_stepNo]

/-- The word at pc decodes to one instruction. -/
theorem Fetches.unique {s : State} {i j : Instr} (hi : Fetches s i) (hj : Fetches s j) : i = j := by
  obtain ⟨-, -, hi⟩ := hi
  obtain ⟨-, -, hj⟩ := hj
  exact Option.some.inj (hi.symm.trans hj)

/-! ### A Step that raises (40_cycle.md R96) -/

/-- `t` is what a Step from `s` leaves that raises `f`: the ticks before it are taken, its inputs are spent, the flag is 0 and
the outputs report `f`. -/
def StepRaised (f : Fault) (s t : State) : Prop :=
  t = { s with
    dt := countDown (stepInput s).ticks s.dt
    displayChanged := false
    result := f.kind
    info := f.info
    inputs := s.inputs.tail
    stepNo := s.stepNo + 1 }

/-- Taking an error where the Step fetches, then spending the inputs. -/
theorem stepRaised_consumeInput {s : State} (hl : s.loadError = false) (f : Fault) :
    StepRaised f s (consumeInput { beginStep s with displayChanged := false, result := f.kind, info := f.info }) := by
  rw [beginStep_eq hl]
  rfl

/-- A Step that is not blocked ends in one of three ways: it raises, in fetch or in the instruction; it skips an Unknown word;
or the instruction it runs ends OK. -/
theorem step_ends {s t : State} (hl : s.loadError = false) (h : step s = .next t) :
    (∃ f, StepRaised f s t) ∨
    (t.result = .unknownOpcode ∧ t.displayChanged = false) ∨
    (∃ i u, Fetches s i ∧ exec i (beginStep s) = .next u ∧ u.result = .ok ∧ t = consumeInput u) := by
  rcases step_cases s with ⟨hl', -⟩ | ⟨-, f, -, hs⟩ | ⟨-, op, -, -, hs⟩ | ⟨-, op, i, u, hf, hd, he, hs⟩
  case inl => rw [hl] at hl'; cases hl'
  case inr.inl =>
    rw [hs] at h; cases h
    exact .inl ⟨f, stepRaised_consumeInput hl f⟩
  case inr.inr.inl =>
    rw [hs] at h; cases h
    exact .inr (.inl ⟨rfl, rfl⟩)
  case inr.inr.inr =>
    rw [hs] at h; cases h
    rcases exec_result he with ⟨hok, -⟩ | ⟨f, -, rfl⟩
    · exact .inr (.inr ⟨i, u, (fetches_iff s i).2 ⟨hl, op, hf, hd⟩, he, hok, rfl⟩)
    · exact .inl ⟨f, stepRaised_consumeInput hl f⟩

/-- Settles O36: a fetch at 4095 or above fails, and the Step takes its error. -/
theorem fetchErrorIsReported : Obligations.FetchErrorIsReported := by
  intro s hl hpc
  have hf := fetch_error_of_ge hpc
  rcases step_cases s with ⟨hl', -⟩ | ⟨-, f, hf', hs⟩ | ⟨-, op, hf', -⟩ | ⟨-, op, i, t, hf', -⟩
  case inl => rw [hl] at hl'; cases hl'
  case inr.inl =>
    rw [hf] at hf'; cases hf'
    exact hs.trans (congrArg _ (stepRaised_consumeInput hl _))
  all_goals rw [hf] at hf'; cases hf'

/-- Settles O41: of the three ends of a Step only the raise is fatal. -/
theorem fatalStepIsPrecise : Obligations.FatalStepIsPrecise := by
  intro s t hl h hfatal
  rcases step_ends hl h with ⟨f, ht⟩ | ⟨hunknown, -⟩ | ⟨i, u, -, -, hok, rfl⟩
  · unfold StepRaised at ht
    subst ht
    rfl
  · rw [hunknown] at hfatal; cases hfatal
  · rw [consumeInput_result, hok] at hfatal; cases hfatal

/-! ### The display flag (40_cycle.md R91, 45_display.md R150, R151) -/

/-- The two instructions that write the frame buffer. -/
def Draws (i : Instr) : Prop := i = .cls ∨ ∃ x y n, i = .drw x y n

/-- A drawing instruction that ends OK sets the flag. -/
theorem exec_displayChanged_of_draws {i : Instr} {s t : State} (hi : Draws i) (h : exec i s = .next t)
    (hok : t.result = .ok) : t.displayChanged = true := by
  rcases hi with rfl | ⟨x, y, n, rfl⟩
  · cases h; rfl
  · rcases execDrw_cases x y n s with ⟨f, -, hf⟩ | ⟨-, f, -, hf⟩ | ⟨-, -, hf⟩ <;> rw [exec, hf] at h <;> cases h
    · exact absurd hok f.kind_ne_ok
    · exact absurd hok f.kind_ne_ok
    · rfl

/-- A store, raised or completed, leaves a cleared flag cleared. -/
theorem storeAtI_displayChanged {bs : List Byte} {s t : State} (h : storeAtI bs s = .next t)
    (hs : s.displayChanged = false) : t.displayChanged = false := by
  rcases storeAtI_cases bs s with ⟨f, -, hf⟩ | ⟨-, hf⟩ <;> rw [hf] at h <;> cases h
  · rfl
  · exact hs

/-- An instruction that does not draw leaves a cleared flag cleared. -/
theorem exec_displayChanged_of_not_draws {i : Instr} {s t : State} (hi : ¬Draws i) (h : exec i s = .next t)
    (hs : s.displayChanged = false) : t.displayChanged = false := by
  cases i
  case cls => exact absurd (.inl rfl) hi
  case drw x y n => exact absurd (.inr ⟨x, y, n, rfl⟩) hi
  case ret =>
    by_cases hp : 0 < s.sp.val
    · rw [exec, execRet_of_pos s hp] at h; cases h; exact hs
    · rw [exec, execRet_empty s (by omega)] at h; cases h; rfl
  case call nnn =>
    by_cases hp : s.sp.val < 16
    · rw [exec, execCall_of_lt nnn s hp] at h; cases h; exact hs
    · rw [exec, execCall_full nnn s (by omega)] at h; cases h; rfl
  case ldB | stRegs => exact storeAtI_displayChanged h hs
  case ldRegs x =>
    cases hf : rangeFault s.i.toNat (x.val + 1) with
    | some f => rw [exec, execLdRegs_raises x s hf] at h; cases h; rfl
    | none => rw [exec, execLdRegs_ok x s hf] at h; cases h; exact hs
  case skp x =>
    cases hf : keyFault (readV s x) with
    | some f => rw [exec, execSkp_raises x s hf] at h; cases h; rfl
    | none => rw [exec, execSkp_ok x s hf] at h; cases h; exact hs
  case sknp x =>
    cases hf : keyFault (readV s x) with
    | some f => rw [exec, execSknp_raises x s hf] at h; cases h; rfl
    | none => rw [exec, execSknp_ok x s hf] at h; cases h; exact hs
  case ldVxK x =>
    rw [exec, execLdVxK, complete_next_iff] at h; subst h
    split <;> exact hs
  all_goals cases h; exact hs

/-- An instruction that ends OK from a cleared flag has it set exactly when it draws. -/
theorem exec_displayChanged_iff {i : Instr} {s t : State} (h : exec i s = .next t) (hs : s.displayChanged = false)
    (hok : t.result = .ok) : t.displayChanged = true ↔ Draws i := by
  refine ⟨fun ht => ?_, fun hi => exec_displayChanged_of_draws hi h hok⟩
  by_contra hi
  rw [exec_displayChanged_of_not_draws hi h hs] at ht
  cases ht

/-- A CLS or a DRW is fetched exactly when the instruction fetched draws. -/
theorem fetches_draw_iff {s : State} {i : Instr} (h : Fetches s i) :
    (Fetches s .cls ∨ ∃ x y n, Fetches s (.drw x y n)) ↔ Draws i := by
  constructor
  · rintro (hc | ⟨x, y, n, hd⟩)
    · exact .inl (h.unique hc)
    · exact .inr ⟨x, y, n, h.unique hd⟩
  · rintro (rfl | ⟨x, y, n, rfl⟩)
    · exact .inl h
    · exact .inr ⟨x, y, n, h⟩

/-- Settles O40: a Step that does not end OK leaves the flag 0; one that does leaves it as its instruction does. -/
theorem displayFlagTellsWhetherTheStepDrew : Obligations.DisplayFlagTellsWhetherTheStepDrew := by
  intro s t hl h
  rcases step_ends hl h with ⟨f, ht⟩ | ⟨hunknown, hflag⟩ | ⟨i, u, hf, he, hok, rfl⟩
  · unfold StepRaised at ht
    simp [ht, f.kind_ne_ok]
  · simp [hunknown, hflag]
  · rw [fetches_draw_iff hf, consumeInput_displayChanged, consumeInput_result, exec_displayChanged_iff he rfl hok]
    exact (and_iff_right hok).symm

end Sys2Proof.Machine

/-! PROOFS. Control transfer (41_flow.md): jumps, CALL and RET with their two faults, and the two no-operations. -/

namespace Sys2Proof.Machine

/-! ### Frame -/

/-- An OK ending that has written pc and perhaps the stack keeps everything else. -/
theorem keepsExcept_flow {changed : List Field} {s t : State} (hpc : .pc ∈ changed)
    (hstack : .stack ∉ changed → t.stack = s.stack) (hsp : .sp ∉ changed → t.sp = s.sp)
    (ht : t = { s with pc := t.pc, stack := t.stack, sp := t.sp, result := .ok, info := 0#16 }) :
    KeepsExcept changed s t := by
  rw [ht]
  simpa [KeepsExcept, hpc] using ⟨hstack, hsp⟩

/-- An OK ending after a write of pc alone. -/
theorem keepsExcept_writePc (w : Word) (s : State) :
    KeepsExcept [.pc] s { writePc w s with result := .ok, info := 0#16 } :=
  keepsExcept_flow (by simp) (fun _ => rfl) (fun _ => rfl) rfl

/-! ### Jumps (R102, R104) -/

/-- The sum of a byte and a 12-bit operand does not wrap. -/
theorem byteWord_add_immWord_toNat (b : Byte) (nnn : Imm12) :
    (byteWord b + immWord nnn).toNat = b.toNat + nnn.toNat := by
  have := b.isLt
  have := nnn.isLt
  rw [BitVec.toNat_add, byteWord_toNat, immWord_toNat]; omega

/-- The fetch after a jump to the last byte of memory (R92). -/
theorem fetch_error_of_eq {s : State} (h : s.pc.toNat = 4095) : fetch s = .error (.outOfBounds 0x1000#16) := by
  obtain ⟨-, hlast, -⟩ := fetchIsBigEndianAndBoundsChecked s
  exact hlast h

/-- The fetch after a jump out of memory (R92). -/
theorem fetch_error_of_outside {s : State} (h : s.pc.toNat ≥ 4096) : fetch s = .error (.outOfBounds s.pc) := by
  obtain ⟨-, -, houtside⟩ := fetchIsBigEndianAndBoundsChecked s
  exact houtside h

/-- Settles O1: a word can be fetched from every 12-bit address but the last. -/
theorem jumpSetsPcToItsOperand : Obligations.JumpSetsPcToItsOperand := by
  intro nnn s
  have hlt := nnn.isLt
  have hpc := immWord_toNat nnn
  refine ⟨_, rfl, ⟨rfl, rfl⟩, hpc, keepsExcept_writePc _ s, fun h => ?_, fun h => fetch_error_of_eq (hpc.trans h)⟩
  have hroom : (immWord nnn).toNat + 1 < 4096 := by omega
  exact ⟨_, fetch_ok hroom⟩

/-- Settles O4: the sum is at most 0xFF + 0xFFF. -/
theorem indexedJumpAddsV0 : Obligations.IndexedJumpAddsV0 := by
  intro nnn s
  have hb := s.v[0].isLt
  have hlt := nnn.isLt
  have hpc := byteWord_add_immWord_toNat s.v[0] nnn
  exact ⟨_, rfl, ⟨rfl, rfl⟩, hpc.trans (by omega), hpc.trans_le (by omega), keepsExcept_writePc _ s,
    fetch_error_of_outside⟩

/-! ### CALL and RET (R100, R103) -/

/-- Settles O2: a push writes one slot, and a fetch bounds the pc that is pushed. -/
theorem callPushesItsOwnAddressOrOverflows : Obligations.CallPushesItsOwnAddressOrOverflows := by
  intro nnn s
  refine ⟨fun h => ⟨_, execCall_full nnn s h, rfl⟩, fun h => ?_, fun op hf => ?_⟩
  · refine ⟨_, execCall_of_lt nnn s h, ⟨rfl, rfl⟩, ?_, fun j hj => ?_, rfl, immWord_toNat nnn, ?_⟩
    · exact Vector.getElem_set_self h
    · exact Vector.getElem_set_ne h j.isLt hj.symm
    · exact keepsExcept_flow (by simp) (by simp) (by simp) rfl
  · exact Nat.le_of_lt_succ (Nat.lt_of_succ_lt_succ (pc_lt_of_fetch hf))

/-- Settles O3: a pop writes no slot. -/
theorem returnPopsAndAddsTwoOrUnderflows : Obligations.ReturnPopsAndAddsTwoOrUnderflows := by
  intro s
  refine ⟨fun h => ⟨_, execRet_empty s h, rfl⟩, fun h => ?_⟩
  exact ⟨_, execRet_of_pos s h, ⟨rfl, rfl⟩, rfl, BitVec.toNat_add ..,
    keepsExcept_flow (by simp) (fun _ => rfl) (by simp) rfl⟩

/-- What was pushed last is popped first, and the depth is as before the push. -/
theorem popStack_of_pushed {w : Word} {s t : State} (h : s.sp.val < 16) (hstack : t.stack = s.stack.set s.sp.val w)
    (hsp : t.sp.val = s.sp.val + 1) : popStack t = some (w, { t with sp := s.sp }) := by
  rw [popStack_of_pos t (by omega)]
  simp [hstack, hsp]

/-- A RET goes to the address after the one that was pushed last. -/
theorem exec_ret_of_pushed {w : Word} {s t : State} (h : s.sp.val < 16) (hstack : t.stack = s.stack.set s.sp.val w)
    (hsp : t.sp.val = s.sp.val + 1) : exec .ret t = complete (writePc (w + 2#16) { t with sp := s.sp }) := by
  rw [exec, execRet, popStack_of_pushed h hstack hsp]

/-- Settles O5: the RET pops the address that the CALL pushed. -/
theorem callThenReturnComesBack : Obligations.CallThenReturnComesBack := by
  intro nnn s h
  exact ⟨_, _, execCall_of_lt nnn s h, exec_ret_of_pushed h rfl rfl, ⟨rfl, rfl⟩, BitVec.toNat_add .., rfl,
    keepsExcept_flow (by simp) (by simp) (fun _ => rfl) rfl⟩

/-! ### The no-operations (R101, 46_keys_timers.md R165) -/

/-- Settles O6: both are the advance of pc and nothing more. -/
theorem sysAndSoundTimerOnlyAdvancePc : Obligations.SysAndSoundTimerOnlyAdvancePc := by
  intro i s h
  have hexec : exec i s = complete (advance s) := by
    obtain ⟨nnn, rfl⟩ | ⟨x, rfl⟩ := h <;> rfl
  exact ⟨_, hexec, ⟨rfl, rfl⟩, pcNext_of rfl, keepsExcept_writePc _ s⟩

end Sys2Proof.Machine

/-! PROOFS. Conditional skips on registers (42_skips.md): one rule for an instruction that skips, and the conditions of the
four as comparisons of numbers. -/

namespace Sys2Proof.Machine

/-- An instruction that is a skip on `c` ends OK and moves pc alone (42_skips.md R114). -/
theorem exec_skipIf_spec {i : Instr} {c : Bool} {P : Prop} {s : State} (h : exec i s = complete (skipIf c s))
    (hc : c = true ↔ P) : ∃ t, exec i s = .next t ∧ EndsOk t ∧ PcSkipsWhen P s t ∧ KeepsExcept [.pc] s t :=
  ⟨_, h, ⟨rfl, rfl⟩, pcSkipsWhen_of (skipIf_pc c s) hc, keepsExcept_writePc _ s⟩

/-- The test for equal bytes compares them as numbers. -/
theorem byte_beq_iff_toNat (a b : Byte) : (a == b) = true ↔ a.toNat = b.toNat :=
  beq_iff_eq.trans BitVec.toNat_inj.symm

/-- The test for different bytes compares them as numbers. -/
theorem byte_bne_iff_toNat (a b : Byte) : (a != b) = true ↔ a.toNat ≠ b.toNat :=
  bne_iff_ne.trans BitVec.toNat_inj.not.symm

/-- Settles O7: the two are skips on the two tests of V[X] against KK. -/
theorem skipsOnImmediate : Obligations.SkipsOnImmediate := by
  intro x kk s
  exact ⟨exec_skipIf_spec rfl (byte_beq_iff_toNat s.v[x.val] kk),
    exec_skipIf_spec rfl (byte_bne_iff_toNat s.v[x.val] kk)⟩

/-- Settles O8: the two are skips on the two tests of V[X] against V[Y]. -/
theorem skipsOnRegisters : Obligations.SkipsOnRegisters := by
  intro x y s
  exact ⟨exec_skipIf_spec rfl (byte_beq_iff_toNat s.v[x.val] s.v[y.val]),
    exec_skipIf_spec rfl (byte_bne_iff_toNat s.v[x.val] s.v[y.val])⟩

end Sys2Proof.Machine

/-! PROOFS. Arithmetic and logic (43_alu.md): one rule for an instruction that writes one register, one for an instruction
that writes VF and then its result, and the table of R133 read off the general statements. -/

namespace Sys2Proof.Machine

/-! ### Instructions that write one register -/

/-- An OK ending after a write of V registers and pc keeps everything else. -/
theorem keepsExcept_regs {s t : State} (ht : t = { s with v := t.v, pc := t.pc, result := .ok, info := 0#16 }) :
    KeepsExcept [.v, .pc] s t := by
  rw [ht]
  simp [KeepsExcept]

/-- An instruction that writes `b` to V[x] and advances ends OK and does nothing else. -/
theorem exec_writeV_spec {i : Instr} {x : Reg} {b : Byte} {s : State} (h : exec i s = complete (advance (writeV x b s))) :
    ∃ t, exec i s = .next t ∧ EndsOk t ∧ t.v[x.val] = b ∧
      KeepsRegsExcept [x] s t ∧ PcNext s t ∧ KeepsExcept [.v, .pc] s t :=
  ⟨_, h, ⟨rfl, rfl⟩, writeV_same x b s, keepsRegsExcept_set rfl, pcNext_of rfl, keepsExcept_regs rfl⟩

/-- The same with the written byte given by its bits. -/
theorem exec_writeV_bits {i : Instr} {x : Reg} {b : Byte} {bit : Nat → Bool} {s : State}
    (h : exec i s = complete (advance (writeV x b s))) (hbits : ∀ j < 8, b.getLsbD j = bit j) :
    ∃ t, exec i s = .next t ∧ EndsOk t ∧ (∀ j < 8, t.v[x.val].getLsbD j = bit j) ∧
      KeepsRegsExcept [x] s t ∧ PcNext s t ∧ KeepsExcept [.v, .pc] s t := by
  obtain ⟨t, ht, hok, hdest, hframe⟩ := exec_writeV_spec h
  exact ⟨t, ht, hok, hdest ▸ hbits, hframe⟩

/-- Settles O9: both write their operand to V[X]. -/
theorem loadsWriteTheirDestination : Obligations.LoadsWriteTheirDestination :=
  ⟨fun _ _ _ => exec_writeV_spec rfl, fun _ _ _ => exec_writeV_spec rfl⟩

/-- Settles O10: addition of bytes is modulo 256, and V[X] is the only register written. -/
theorem addImmediateWrapsAndSetsNoFlag : Obligations.AddImmediateWrapsAndSetsNoFlag := by
  intro x kk s
  obtain ⟨t, ht, hok, hdest, hframe⟩ := exec_writeV_spec (i := .addImm x kk) (s := s) rfl
  exact ⟨t, ht, hok, hdest ▸ BitVec.toNat_add .., hframe⟩

/-- Settles O11: the three operations on bytes act bit by bit. -/
theorem logicActsBitByBit : Obligations.LogicActsBitByBit := by
  intro x y s
  exact ⟨exec_writeV_bits rfl fun _ _ => BitVec.getLsbD_or, exec_writeV_bits rfl fun _ _ => BitVec.getLsbD_and,
    exec_writeV_bits rfl fun _ _ => BitVec.getLsbD_xor⟩

/-- Settles O17: the mask is a bitwise and, and an and never exceeds its mask. -/
theorem randomByteIsMasked : Obligations.RandomByteIsMasked := by
  intro x kk s
  obtain ⟨t, ht, hok, hdest, hframe⟩ := exec_writeV_spec (i := .rnd x kk) (s := s) rfl
  have hle : ((stepInput s).rnd &&& kk).toNat ≤ kk.toNat := by
    rw [BitVec.toNat_and]
    exact Nat.and_le_right
  exact ⟨t, ht, hok, hdest ▸ fun _ _ => BitVec.getLsbD_and, hdest ▸ hle, hframe⟩

/-! ### Instructions that write VF and then their result (00_scope.md R12) -/

/-- What a flag-writing instruction leaves, with flag and result as numbers. -/
theorem exec_flagThenResult_spec {i : Instr} {x : Reg} {flag : Byte} {res : State → Byte} {s : State} {f r : Nat}
    (h : exec i s = complete (advance (flagThenResult x flag res s))) (hflag : flag.toNat = f)
    (hres : (res (writeV regF flag s)).toNat = r) :
    ∃ t, exec i s = .next t ∧ EndsOk t ∧ (t.v[x.val].toNat = r ∧ (x ≠ regF → t.v[15].toNat = f)) ∧
      KeepsRegsExcept [x, regF] s t ∧ PcNext s t ∧ KeepsExcept [.v, .pc] s t := by
  subst hflag hres
  exact ⟨_, h, ⟨rfl, rfl⟩,
    ⟨congrArg _ (flagThenResult_dest x flag res s), fun hx => congrArg _ (flagThenResult_flag hx flag res s)⟩,
    keepsRegsExcept_flagThenResult rfl, pcNext_of rfl, keepsExcept_regs rfl⟩

/-- A register read after the VF write, as a number (43_alu.md R133). -/
theorem readV_writeV_regF_toNat {flag : Byte} {f : Nat} (hflag : flag.toNat = f) (r : Reg) (s : State) :
    (readV (writeV regF flag s) r).toNat = if r = regF then f else s.v[r.val].toNat := by
  rw [readV_writeV_regF, apply_ite BitVec.toNat, hflag]

/-- Subtraction of bytes (43_alu.md R132). -/
theorem byte_sub_toNat (a b : Byte) : (a - b).toNat = (a.toNat + 256 - b.toNat) % 256 := by
  have := b.isLt
  rw [BitVec.toNat_sub]; omega

/-- A byte shifted right by one (43_alu.md R128). -/
theorem byte_shiftRight_one_toNat (a : Byte) : (a >>> 1).toNat = a.toNat / 2 := by
  rw [BitVec.toNat_ushiftRight, Nat.shiftRight_one]

/-- A byte shifted left by one (43_alu.md R130). -/
theorem byte_shiftLeft_one_toNat (a : Byte) : (a <<< 1).toNat = a.toNat * 2 % 256 := by
  rw [BitVec.toNat_shiftLeft, Nat.shiftLeft_eq]

/-- A difference of registers read after the VF write (43_alu.md R133). -/
theorem sub_after_flag_toNat {flag : Byte} {f : Nat} (hflag : flag.toNat = f) (x y : Reg) (s : State) :
    (readV (writeV regF flag s) x - readV (writeV regF flag s) y).toNat =
      ((if x = regF then f else s.v[x.val].toNat) + 256 - (if y = regF then f else s.v[y.val].toNat)) % 256 := by
  rw [byte_sub_toNat, readV_writeV_regF_toNat hflag, readV_writeV_regF_toNat hflag]

/-- Settles O12: the sum is bound before VF is written. -/
theorem addWithCarryOut : Obligations.AddWithCarryOut := by
  intro x y s
  obtain ⟨t, ht, hok, ⟨hdest, hcarry⟩, hframe⟩ :=
    exec_flagThenResult_spec (i := .addReg x y) (s := s) rfl (carryFlag_toNat rfl rfl) (BitVec.toNat_add ..)
  exact ⟨t, ht, hok, hdest, hcarry, hframe⟩

/-- Settles O13: both operands are read after the VF write. -/
theorem subtractWithNotBorrow : Obligations.SubtractWithNotBorrow := by
  intro x y s
  have hflag := notBorrowFlag_toNat (a := s.v[x.val]) (b := s.v[y.val]) rfl rfl
  exact exec_flagThenResult_spec rfl hflag (sub_after_flag_toNat hflag x y s)

/-- Settles O14: as O13, with flag and difference of the exchanged operands. -/
theorem reverseSubtractWithNotBorrow : Obligations.ReverseSubtractWithNotBorrow := by
  intro x y s
  have hflag := notBorrowFlag_toNat (a := s.v[y.val]) (b := s.v[x.val]) rfl rfl
  exact exec_flagThenResult_spec rfl hflag (sub_after_flag_toNat hflag y x s)

/-- Settles O15: the shifted register is read after the VF write. -/
theorem shiftsMoveOneBitIntoVF : Obligations.ShiftsMoveOneBitIntoVF := by
  intro x y s
  have hright := shiftedOutRight_toNat s.v[x.val]
  have hleft := shiftedOutLeft_toNat s.v[x.val]
  refine ⟨exec_flagThenResult_spec rfl hright ?_, exec_flagThenResult_spec rfl hleft ?_⟩
  · exact (byte_shiftRight_one_toNat _).trans (congrArg (· / 2) (readV_writeV_regF_toNat hright x s))
  · exact (byte_shiftLeft_one_toNat _).trans (congrArg (· * 2 % 256) (readV_writeV_regF_toNat hleft x s))

/-! ### The table of R133, one row for each instruction -/

section
variable {r : Reg} {s : State} {a f : Nat} (hr : r ≠ regF) (ha : s.v[r.val].toNat = a) (hf : s.v[15].toNat = f)
include hr ha hf

/-- The row of 8XY4. -/
theorem addReg_row :
    (∃ t, exec (.addReg r regF) s = .next t ∧
      t.v[r.val].toNat = (a + f) % 256 ∧ t.v[15].toNat = if a + f > 255 then 1 else 0) ∧
    (∃ t, exec (.addReg regF r) s = .next t ∧ t.v[15].toNat = (f + a) % 256) ∧
    (∃ t, exec (.addReg regF regF) s = .next t ∧ t.v[15].toNat = 2 * f % 256) := by
  subst ha hf
  obtain ⟨t, ht, -, hsum, hcarry, -⟩ := addWithCarryOut r regF s
  obtain ⟨u, hu, -, husum, -⟩ := addWithCarryOut regF r s
  obtain ⟨w, hw, -, hwsum, -⟩ := addWithCarryOut regF regF s
  rw [← Nat.two_mul] at hwsum
  exact ⟨⟨t, ht, hsum, hcarry hr⟩, ⟨u, hu, husum⟩, w, hw, hwsum⟩

/-- The row of 8XY5. -/
theorem sub_row :
    (∃ t, exec (.sub r regF) s = .next t ∧
      t.v[r.val].toNat = (a + 256 - (if a ≥ f then 1 else 0)) % 256 ∧ t.v[15].toNat = if a ≥ f then 1 else 0) ∧
    (∃ t, exec (.sub regF r) s = .next t ∧ t.v[15].toNat = ((if f ≥ a then 1 else 0) + 256 - a) % 256) ∧
    (∃ t, exec (.sub regF regF) s = .next t ∧ t.v[15].toNat = 0) := by
  subst ha hf
  obtain ⟨t, ht, -, ⟨hdiff, hflag⟩, -⟩ := subtractWithNotBorrow r regF s
  obtain ⟨u, hu, -, ⟨hudiff, -⟩, -⟩ := subtractWithNotBorrow regF r s
  obtain ⟨w, hw, -, ⟨hwdiff, -⟩, -⟩ := subtractWithNotBorrow regF regF s
  simp only [if_neg hr, if_true, ← not_le, ite_not] at hdiff hflag hudiff
  rw [Nat.add_sub_cancel_left, Nat.mod_self] at hwdiff
  exact ⟨⟨t, ht, hdiff, hflag hr⟩, ⟨u, hu, hudiff⟩, w, hw, hwdiff⟩

/-- The row of 8XY7. -/
theorem subn_row :
    (∃ t, exec (.subn r regF) s = .next t ∧
      t.v[r.val].toNat = ((if f ≥ a then 1 else 0) + 256 - a) % 256 ∧ t.v[15].toNat = if f ≥ a then 1 else 0) ∧
    (∃ t, exec (.subn regF r) s = .next t ∧ t.v[15].toNat = (a + 256 - (if a ≥ f then 1 else 0)) % 256) ∧
    (∃ t, exec (.subn regF regF) s = .next t ∧ t.v[15].toNat = 0) := by
  subst ha hf
  obtain ⟨t, ht, -, ⟨hdiff, hflag⟩, -⟩ := reverseSubtractWithNotBorrow r regF s
  obtain ⟨u, hu, -, ⟨hudiff, -⟩, -⟩ := reverseSubtractWithNotBorrow regF r s
  obtain ⟨w, hw, -, ⟨hwdiff, -⟩, -⟩ := reverseSubtractWithNotBorrow regF regF s
  simp only [if_neg hr, if_true, ← not_le, ite_not] at hdiff hflag hudiff
  rw [Nat.add_sub_cancel_left, Nat.mod_self] at hwdiff
  exact ⟨⟨t, ht, hdiff, hflag hr⟩, ⟨u, hu, hudiff⟩, w, hw, hwdiff⟩

end

/-- The rows of 8XY6 and 8XYE: the flag, 0 or 1, is what is shifted. -/
theorem shift_rows {s : State} {f : Nat} (hf : s.v[regF.val].toNat = f) (y : Reg) :
    (∃ t, exec (.shr regF y) s = .next t ∧ t.v[15].toNat = 0) ∧
    (∃ t, exec (.shl regF y) s = .next t ∧ t.v[15].toNat = if f ≥ 0x80 then 2 else 0) := by
  have hbyte : f < 256 := hf ▸ s.v[regF.val].isLt
  obtain ⟨⟨t, ht, -, ⟨hright, -⟩, -⟩, u, hu, -, ⟨hleft, -⟩, -⟩ := shiftsMoveOneBitIntoVF regF y s
  rw [if_pos rfl, hf] at hright hleft
  refine ⟨⟨t, ht, hright.trans (by omega)⟩, u, hu, hleft.trans ?_⟩
  split <;> omega

/-- Settles O16: the rows of the table in its order. -/
theorem flagRegisterAsOperandTable : Obligations.FlagRegisterAsOperandTable := by
  intro r s a f hr ha hf
  obtain ⟨hadd, haddF, haddFF⟩ := addReg_row hr ha hf
  obtain ⟨hsub, hsubF, hsubFF⟩ := sub_row hr ha hf
  exact ⟨⟨hadd, haddF, haddFF, hsub, hsubF, hsubFF, subn_row hr ha hf⟩, shift_rows hf⟩

end Sys2Proof.Machine

/-! PROOFS. Index register, loads and stores (44_index_memory.md): one rule for an instruction that writes I, one for a range
that leaves memory, one for an instruction that stores bytes from I up. -/

namespace Sys2Proof.Machine

/-! ### Instructions that write I (R140, R141, R142) -/

/-- An instruction that writes a word of value `n` to I and advances ends OK and does nothing else. -/
theorem exec_writeI_spec {i : Instr} {w : Word} {s : State} {n : Nat} (h : exec i s = complete (advance (writeI w s)))
    (hw : w.toNat = n) :
    ∃ t, exec i s = .next t ∧ EndsOk t ∧ t.i.toNat = n ∧ PcNext s t ∧ KeepsExcept [.i, .pc] s t :=
  ⟨_, h, ⟨rfl, rfl⟩, hw, pcNext_of rfl, by simp [KeepsExcept]⟩

/-- Settles O18: the operand is written to I as a word. -/
theorem loadIndexTakesImmediate : Obligations.LoadIndexTakesImmediate :=
  fun nnn _ => exec_writeI_spec rfl (immWord_toNat nnn)

/-- Settles O19: FX1E writes a sum of words, FX29 the word 0. -/
theorem addToIndexWrapsAndFontStubClearsIndex : Obligations.AddToIndexWrapsAndFontStubClearsIndex := by
  intro x s
  have hsum : (s.i + byteWord s.v[x.val]).toNat = (s.i.toNat + s.v[x.val].toNat) % 65536 := by
    rw [BitVec.toNat_add, byteWord_toNat]
  exact ⟨exec_writeI_spec rfl hsum, exec_writeI_spec rfl rfl⟩

/-! ### Ranges that leave memory (R146, 20_memory.md R52) -/

/-- An instruction that raises OutOfBounds does nothing else (40_cycle.md R96). -/
theorem exec_outOfBounds_spec {i : Instr} {s : State} {a : Nat}
    (h : exec i s = raiseFault (.outOfBounds (BitVec.ofNat 16 a)) s) :
    ∃ t, exec i s = .next t ∧ Raised .outOfBounds a s t :=
  ⟨_, h, rfl⟩

/-! ### Instructions that store bytes from I up (R143, R144) -/

/-- A store whose range leaves memory stores nothing. -/
theorem exec_storeAtI_raised {i : Instr} {bs : List Byte} {s : State} (h : exec i s = storeAtI bs s)
    (h0 : 0 < bs.length) (hout : 4096 < s.i.toNat + bs.length) :
    ∃ t, exec i s = .next t ∧ Raised .outOfBounds (max s.i.toNat 4096) s t :=
  exec_outOfBounds_spec (h.trans (storeAtI_raises h0 hout))

/-- A store whose range lies in memory writes its bytes there and nothing else. -/
theorem exec_storeAtI_spec {i : Instr} {bs : List Byte} {s : State} (h : exec i s = storeAtI bs s)
    (hm : Memory.wf s.mem) (hin : s.i.toNat + bs.length ≤ 4096) :
    ∃ t, exec i s = .next t ∧ EndsOk t ∧ (∀ k < bs.length, memByte t.mem (s.i.toNat + k) = bs.getD k 0#8) ∧
      KeepsBytesOutside s.i.toNat bs.length s t ∧ PcNext s t ∧ KeepsExcept [.mem, .pc] s t :=
  ⟨_, h.trans (storeAtI_ok hin), ⟨rfl, rfl⟩, fun _ hk => memByte_storeBytes_add hm hin hk,
    keepsBytesOutside_of hm hin rfl, pcNext_of rfl, by simp [KeepsExcept]⟩

/-- The three digits of a byte, as numbers. -/
theorem decimalDigits_toNat (b : Byte) :
    ((decimalDigits b).getD 0 0#8).toNat = b.toNat / 100 ∧
    ((decimalDigits b).getD 1 0#8).toNat = b.toNat / 10 % 10 ∧
    ((decimalDigits b).getD 2 0#8).toNat = b.toNat % 10 := by
  have hb := b.isLt
  have hdigit {n : Nat} (hn : n < 256) : (BitVec.ofNat 8 n).toNat = n := Nat.mod_eq_of_lt hn
  exact ⟨hdigit (by omega), hdigit (by omega), hdigit (by omega)⟩

/-- Settles O20: a store of the three digits of V[X]. -/
theorem decimalDigitsAreStoredOrNothingIs : Obligations.DecimalDigitsAreStoredOrNothingIs := by
  intro x s hm
  have hexec : exec (.ldB x) s = storeAtI (decimalDigits s.v[x.val]) s := rfl
  have hlen : (decimalDigits s.v[x.val]).length = 3 := rfl
  obtain ⟨hhundreds, htens, hones⟩ := decimalDigits_toNat s.v[x.val]
  refine ⟨fun hout => ?_, fun hin => ?_⟩
  · exact exec_storeAtI_raised hexec (by omega) (by omega)
  · obtain ⟨t, ht, hok, hbytes, hframe⟩ := exec_storeAtI_spec hexec hm (by omega)
    exact ⟨t, ht, hok, (congrArg _ (hbytes 0 (by omega))).trans hhundreds, (congrArg _ (hbytes 1 (by omega))).trans htens,
      (congrArg _ (hbytes 2 (by omega))).trans hones, hframe⟩

/-- Settles O21: a store of V0..VX, X + 1 bytes. -/
theorem registersAreStoredOrNothingIs : Obligations.RegistersAreStoredOrNothingIs := by
  intro x s hm
  have hexec : exec (.stRegs x) s = storeAtI (regBytes s.v x) s := rfl
  have hlen := length_regBytes s.v x
  refine ⟨fun hout => ?_, fun hin => ?_⟩
  · exact exec_storeAtI_raised hexec (by omega) (by omega)
  · obtain ⟨t, ht, hok, hbytes, hframe⟩ := exec_storeAtI_spec hexec hm (by omega)
    rw [hlen] at hframe
    exact ⟨t, ht, hok, fun k hk => (hbytes k.val (by omega)).trans (getD_regBytes s.v x k hk), hframe⟩

/-! ### The load from I up (R145) -/

/-- FX65 with its range not in memory. -/
theorem exec_ldRegs_raises {x : Reg} {s : State} (h : s.i.toNat + x.val > 4095) :
    exec (.ldRegs x) s = raiseFault (.outOfBounds (BitVec.ofNat 16 (max s.i.toNat 4096))) s :=
  execLdRegs_raises x s (rangeFault_some (Nat.succ_pos _) h)

/-- Settles O22: the load writes the registers up to V[X] alone. -/
theorem registersAreLoadedOrNoneIs : Obligations.RegistersAreLoadedOrNoneIs := by
  intro x s
  have hload := getElem_loadRegs s.mem s.i.toNat (x.val + 1) s.v
  refine ⟨fun hout => exec_outOfBounds_spec (exec_ldRegs_raises hout), fun hin => ?_⟩
  refine ⟨_, exec_ldRegs_ok hin, ⟨rfl, rfl⟩, fun k hk => ?_, fun k hk => ?_, pcNext_of rfl, keepsExcept_regs rfl⟩
  · exact (hload k).trans (if_pos (by omega))
  · exact (hload k).trans (if_neg (by omega))

end Sys2Proof.Machine

/-! PROOFS. Display (45_display.md): the clear, the two faults of a draw, a draw as FB xor the placed sprite, and the same
draw twice. -/

namespace Sys2Proof.Machine

/-- Settles O24: the blank frame buffer is shown, whatever was there before. -/
theorem clearScreenClearsEveryPixel : Obligations.ClearScreenClearsEveryPixel := by
  intro s
  exact ⟨_, rfl, ⟨rfl, rfl⟩, fun r _ c _ => fbPixel_blank r c, rfl, pcNext_of rfl, by simp [KeepsExcept]⟩

/-! ### A draw that raises (R152) -/

/-- DXYN with its range not in memory, whatever its footprint. -/
theorem exec_drw_outOfBounds {x y : Reg} {n : Height} {s : State} (h0 : 0 < n.val) (h : s.i.toNat + n.val - 1 > 4095) :
    exec (.drw x y n) s = raiseFault (.outOfBounds (BitVec.ofNat 16 (max s.i.toNat 4096))) s := by
  rw [exec, execDrw, rangeFault_some h0 h]

/-- A footprint that leaves the grid raises DrawOutOfBounds with the two coordinates. -/
theorem footprintFault_some {x y : Byte} {n : Nat} (h0 : 0 < n) (h : x.toNat > 56 ∨ y.toNat + n > 32) :
    footprintFault x y n = some (.drawOutOfBounds x y) := by
  rw [footprintFault, if_pos (by omega)]

/-- DXYN with its range in memory and its footprint not in the grid. -/
theorem exec_drw_drawOutOfBounds {x y : Reg} {n : Height} {s : State} (h0 : 0 < n.val)
    (hmem : s.i.toNat + n.val - 1 ≤ 4095) (h : s.v[x.val].toNat > 56 ∨ s.v[y.val].toNat + n.val > 32) :
    exec (.drw x y n) s = raiseFault (.drawOutOfBounds s.v[x.val] s.v[y.val]) s := by
  simp only [exec, execDrw, rangeFault_ok (.inr hmem), readV_def, footprintFault_some h0 h]

/-- The info of DrawOutOfBounds as a number (60_exceptions.md R170). -/
theorem drawOutOfBounds_info (x y : Byte) :
    (Fault.drawOutOfBounds x y).info = BitVec.ofNat 16 (x.toNat * 256 + y.toNat) := by
  rw [← wordOfBytes_toNat, BitVec.ofNat_toNat, BitVec.setWidth_eq]
  rfl

/-- Settles O25: the three cases are the three ends of a draw. -/
theorem drawChecksMemoryThenFootprint : Obligations.DrawChecksMemoryThenFootprint := by
  intro x y n s
  refine ⟨fun h0 hout => exec_outOfBounds_spec (exec_drw_outOfBounds h0 hout), fun h0 hmem hgrid => ?_, fun h => ?_⟩
  · refine ⟨_, exec_drw_drawOutOfBounds h0 hmem hgrid, ?_⟩
    rw [Raised, ← drawOutOfBounds_info]
    rfl
  · exact ⟨_, execDrw_of_inside h, rfl, rfl⟩

/-! ### A draw that is inside (R151, R153) -/

/-- Some pixel under a 1 bit of the placed sprite is set (`b = true`), or some is clear (`b = false`). -/
def HasPixelUnderSprite (b : Bool) (x y : Reg) (n : Height) (s : State) : Prop :=
  ∃ r < 32, ∃ c < 64, placedSprite s x y n r c = true ∧ pixel s r c = b

/-- A sprite without rows has no 1 bit, wherever it is placed. -/
theorem placedSprite_zero (s : State) (x y : Reg) (r c : Nat) : placedSprite s x y 0 r c = false := by
  simp only [placedSprite, Bool.and_eq_false_iff, decide_eq_false_iff_not, Fin.val_zero]
  exact .inl (by omega)

/-- A draw that is inside has no rows, or the coordinates that the blitter's loops need. -/
theorem DrawIsInside.cases {s : State} {x y : Reg} {n : Height} (h : DrawIsInside s x y n) :
    n = 0 ∨ (s.v[x.val].toNat + 8 ≤ 64 ∧ s.v[y.val].toNat + (readBytes s.mem s.i.toNat n.val).length ≤ 32) := by
  obtain h0 | ⟨-, hx, hy⟩ := h
  · exact .inl (Fin.ext h0)
  · rw [length_readBytes]
    exact .inr ⟨by omega, hy⟩

/-- FB' = FB xor S (R153). -/
theorem fbPixel_blitSprite {s : State} {x y : Reg} {n : Height} (h : DrawIsInside s x y n) (r c : Nat) :
    fbPixel (blitSprite x y n s).1 r c = (pixel s r c ^^ placedSprite s x y n r c) := by
  obtain rfl | ⟨hx, hy⟩ := h.cases
  · rw [placedSprite_zero, Bool.xor_false]
    rfl
  · rw [← placedRows_readBytes]
    exact fbPixel_drawRows hx _ hy _ r c

/-- The blit collides when a 1 bit of the sprite meets a set pixel (R153). -/
theorem collides_blitSprite {s : State} {x y : Reg} {n : Height} (h : DrawIsInside s x y n) :
    (blitSprite x y n s).2 = true ↔ HasPixelUnderSprite true x y n s := by
  unfold HasPixelUnderSprite
  obtain rfl | ⟨hx, hy⟩ := h.cases
  · simp [placedSprite_zero, blitSprite, readBytes, drawRows]
  · simp only [← placedRows_readBytes]
    exact (collides_drawRows hx _ hy _).trans (by simp [pixel])

/-- A condition written to VF, when it says whether `P` holds. -/
theorem flagByte_toNat_of_iff {c : Bool} {P : Prop} (h : c = true ↔ P) :
    (P → (flagByte c).toNat = 1) ∧ (¬P → (flagByte c).toNat = 0) := by
  rw [flagByte_toNat]
  exact ⟨fun hp => if_pos (h.2 hp), fun hp => if_neg fun hc => hp (h.1 hc)⟩

/-- Settles O26: the blit is the xor, its collision is what VF gets. -/
theorem drawXorsThePlacedSprite : Obligations.DrawXorsThePlacedSprite := by
  intro x y n s h
  obtain ⟨hhit, hmiss⟩ := flagByte_toNat_of_iff (collides_blitSprite h)
  have hVF := congrArg BitVec.toNat (writeV_same regF (flagByte (blitSprite x y n s).2) s)
  exact ⟨_, execDrw_of_inside h, ⟨rfl, rfl⟩, fun r _ c _ => fbPixel_blitSprite h r c, fun hp => hVF.trans (hhit hp),
    fun hp => hVF.trans (hmiss hp), rfl, keepsRegsExcept_set rfl, pcNext_of rfl, by simp [KeepsExcept]⟩

/-! ### The same draw twice (R153) -/

/-- `s` and `t` agree on all that DXYN places its sprite by: the two coordinates, I and memory. -/
def SamePlacement (x y : Reg) (s t : State) : Prop :=
  t.v[x.val] = s.v[x.val] ∧ t.v[y.val] = s.v[y.val] ∧ t.i = s.i ∧ ∀ a, memByte t.mem a = memByte s.mem a

theorem SamePlacement.placedSprite_eq {x y : Reg} {s t : State} (h : SamePlacement x y s t) (n : Height) (r c : Nat) :
    placedSprite t x y n r c = placedSprite s x y n r c := by
  obtain ⟨hx, hy, hi, hm⟩ := h
  simp only [placedSprite, hx, hy, hi, hm]

theorem SamePlacement.drawIsInside {x y : Reg} {n : Height} {s t : State} (h : SamePlacement x y s t)
    (hs : DrawIsInside s x y n) : DrawIsInside t x y n := by
  obtain ⟨hx, hy, hi, -⟩ := h
  rwa [DrawIsInside, hx, hy, hi]

/-- A draw keeps its own placement when neither coordinate is in VF. -/
theorem samePlacement_of_draw {x y : Reg} {s t : State} (hx : x ≠ regF) (hy : y ≠ regF)
    (hregs : KeepsRegsExcept [regF] s t) (hkeep : KeepsExcept [.v, .fb, .displayChanged, .pc] s t) :
    SamePlacement x y s t := by
  obtain ⟨-, hi, -, -, -, -, -, -, hm, -⟩ := hkeep
  exact ⟨hregs x (by simpa using hx), hregs y (by simpa using hy), hi (by simp), hm (by simp)⟩

/-- After a draw the set pixels under its 1 bits are those that were clear before it. -/
theorem hasPixelUnderSprite_after_draw {x y : Reg} {n : Height} {s t : State} (h : SamePlacement x y s t)
    (hfb : ∀ r < 32, ∀ c < 64, pixel t r c = (pixel s r c ^^ placedSprite s x y n r c)) :
    HasPixelUnderSprite true x y n t ↔ HasPixelUnderSprite false x y n s := by
  unfold HasPixelUnderSprite
  refine exists_congr fun r => and_congr_right fun hr => exists_congr fun c => and_congr_right fun hc => ?_
  rw [h.placedSprite_eq]
  refine and_congr_right fun hone => ?_
  rw [hfb r hr c hc, hone, Bool.xor_true, Bool.not_eq_true']

/-- Settles O27: the first draw keeps the placement, so the second is the xor with the same sprite. -/
theorem drawTwiceRestoresFrameBuffer : Obligations.DrawTwiceRestoresFrameBuffer := by
  intro x y n s hx hy hs
  obtain ⟨t, ht, -, htfb, -, -, -, hregs, -, hkeep⟩ := drawXorsThePlacedSprite x y n s hs
  have hsame := samePlacement_of_draw hx hy hregs hkeep
  obtain ⟨u, hu, huok, hufb, hhit, hmiss, -⟩ := drawXorsThePlacedSprite x y n t (hsame.drawIsInside hs)
  have hflag := hasPixelUnderSprite_after_draw hsame htfb
  refine ⟨t, u, ht, hu, huok, frameBuffer_ext fun r hr c hc => ?_, fun hp => hhit (hflag.2 hp),
    fun hp => hmiss (mt hflag.1 hp)⟩
  calc pixel u r c
      = ((pixel s r c ^^ placedSprite s x y n r c) ^^ placedSprite s x y n r c) := by
        rw [hufb r hr c hc, htfb r hr c hc, hsame.placedSprite_eq]
    _ = pixel s r c := by rw [Bool.xor_assoc, Bool.xor_self, Bool.xor_false]

end Sys2Proof.Machine

/-! PROOFS. Keys and timer (46_keys_timers.md): the two key skips and their fault, the key FX0A reports, and the two copies of
DT. -/

namespace Sys2Proof.Machine

/-! ### The key skips (R160, R161) -/

theorem keyFault_of_gt {k : Byte} (h : k.toNat > 15) : keyFault k = some (.keyIndexOutOfRange k) := if_pos h

theorem keyFault_of_le {k : Byte} (h : k.toNat ≤ 15) : keyFault k = none := if_neg (Nat.not_lt.2 h)

/-- An instruction that raises KeyIndexOutOfRange reports the key number and does nothing else (40_cycle.md R96). -/
theorem exec_keyIndexOutOfRange_spec {i : Instr} {k : Byte} {s : State}
    (h : exec i s = raiseFault (.keyIndexOutOfRange k) s) :
    ∃ t, exec i s = .next t ∧ Raised .keyIndexOutOfRange k.toNat s t :=
  ⟨_, h, by rw [Raised, BitVec.ofNat_toNat]; rfl⟩

/-- Settles O28: a key number passes the check exactly up to 15, and then the two are skips on its level and on the
opposite. -/
theorem keySkipsTestTheSampledLevel : Obligations.KeySkipsTestTheSampledLevel := by
  intro x s
  refine ⟨fun h => ?_, fun h => ?_⟩
  · have hf : keyFault (readV s x) = some (.keyIndexOutOfRange s.v[x.val]) := keyFault_of_gt h
    exact ⟨exec_keyIndexOutOfRange_spec (execSkp_raises x s hf), exec_keyIndexOutOfRange_spec (execSknp_raises x s hf)⟩
  · have hf : keyFault (readV s x) = none := keyFault_of_le h
    exact ⟨exec_skipIf_spec (execSkp_ok x s hf) Iff.rfl,
      exec_skipIf_spec (execSknp_ok x s hf) (Bool.not_eq_true' _).to_iff⟩

/-! ### The wait for a key (R162) -/

/-- A mask that is not 0 has a 1 bit. -/
theorem exists_held_of_ne_zero {keys : BitVec 16} (h : keys ≠ 0#16) : ∃ k < 16, keys.getLsbD k = true := by
  by_contra hnone
  refine h (BitVec.eq_of_getLsbD_eq fun k hk => ?_)
  rw [BitVec.getLsbD_zero, Bool.eq_false_iff]
  exact fun hheld => hnone ⟨k, hk, hheld⟩

/-- The priority encoder over all sixteen keys. -/
theorem lowestHeld_of_ne_zero {keys : BitVec 16} (h : keys ≠ 0#16) :
    lowestHeld keys 16 0 < 16 ∧ keys.getLsbD (lowestHeld keys 16 0) = true ∧
      ∀ k < lowestHeld keys 16 0, keys.getLsbD k = false := by
  obtain ⟨k, hk, hheld⟩ := exists_held_of_ne_zero h
  obtain ⟨hlt, hlow, hbelow⟩ := lowestHeld_spec (fuel := 16) ⟨k, Nat.zero_le k, by omega, hheld⟩
  exact ⟨by omega, hlow, fun j => hbelow j (Nat.zero_le j)⟩

theorem pickKey_toNat_of_held {input : StepInput} (h : input.keyHeld.getLsbD input.pick.val = true) :
    (pickKey input).toNat = input.pick.val := by
  have hlt := input.pick.isLt
  rw [pickKey, if_pos h, BitVec.toNat_ofNat, Nat.mod_eq_of_lt (by omega)]

theorem pickKey_toNat_of_not_held {input : StepInput} (h0 : input.keyHeld ≠ 0#16)
    (h : input.keyHeld.getLsbD input.pick.val = false) : (pickKey input).toNat = lowestHeld input.keyHeld 16 0 := by
  obtain ⟨hlt, -⟩ := lowestHeld_of_ne_zero h0
  rw [pickKey, if_neg (Bool.eq_false_iff.1 h), BitVec.toNat_ofNat, Nat.mod_eq_of_lt (by omega)]

/-- The key FX0A reports is one of the sixteen and held. -/
theorem pickKey_isHeld {input : StepInput} (h0 : input.keyHeld ≠ 0#16) :
    (pickKey input).toNat < 16 ∧ input.keyHeld.getLsbD (pickKey input).toNat = true := by
  cases h : input.keyHeld.getLsbD input.pick.val with
  | true => rw [pickKey_toNat_of_held h]; exact ⟨input.pick.isLt, h⟩
  | false =>
    obtain ⟨hlt, hlow, -⟩ := lowestHeld_of_ne_zero h0
    rw [pickKey_toNat_of_not_held h0 h]; exact ⟨hlt, hlow⟩

/-- With the preferred key up, no key below the reported one is held. -/
theorem not_held_below_pickKey {input : StepInput} (h0 : input.keyHeld ≠ 0#16)
    (h : input.keyHeld.getLsbD input.pick.val = false) : ∀ k < (pickKey input).toNat, input.keyHeld.getLsbD k = false := by
  obtain ⟨-, -, hbelow⟩ := lowestHeld_of_ne_zero h0
  rwa [pickKey_toNat_of_not_held h0 h]

theorem exec_ldVxK_hold {x : Reg} {s : State} (h : (stepInput s).keyHeld = 0#16) : exec (.ldVxK x) s = complete s := by
  rw [exec, execLdVxK, if_pos h]

theorem exec_ldVxK_pick {x : Reg} {s : State} (h : (stepInput s).keyHeld ≠ 0#16) :
    exec (.ldVxK x) s = complete (advance (writeV x (pickKey (stepInput s)) s)) := by
  rw [exec, execLdVxK, if_neg h]

/-- Settles O29: FX0A holds, or writes the picked key to V[X]. -/
theorem keyWaitHoldsOrReportsAHeldKey : Obligations.KeyWaitHoldsOrReportsAHeldKey := by
  intro x s
  refine ⟨fun h0 => ⟨_, exec_ldVxK_hold h0, ⟨rfl, rfl⟩, by simp [KeepsExcept]⟩, fun h0 => ?_⟩
  obtain ⟨t, ht, hok, hdest, hframe⟩ := exec_writeV_spec (exec_ldVxK_pick (x := x) h0)
  obtain ⟨hlt, hheld⟩ := pickKey_isHeld h0
  rw [← hdest] at hlt hheld
  exact ⟨t, ht, hok, hlt, hheld, hdest ▸ pickKey_toNat_of_held, hdest ▸ not_held_below_pickKey h0, hframe⟩

/-! ### The delay timer (R163, R164) -/

/-- Settles O30: V[X] is the one register written, with DT. -/
theorem delayTimerIsRead : Obligations.DelayTimerIsRead := fun _ _ => exec_writeV_spec rfl

/-- One Tick60 takes 1 from DT, stopping at 0 (60_exceptions.md R184). -/
theorem tick60_dt_toNat {s : State} (h : s.loadError = false) : (tick60 s).dt.toNat = s.dt.toNat - 1 := by
  simp [tick60_eq_tickMany, h, countDown_toNat]

/-- Settles O31: the write is of DT and pc alone, and a Tick60 finds V[X] in DT. -/
theorem delayTimerIsWritten : Obligations.DelayTimerIsWritten := by
  intro x s
  exact ⟨_, rfl, ⟨rfl, rfl⟩, rfl, pcNext_of rfl, by simp [KeepsExcept], fun h => tick60_dt_toNat h⟩

end Sys2Proof.Machine

/-! PROOFS. Exceptions and the timer (60_exceptions.md): the error an instruction or a Step raises as a function of the state,
its repetition until Reset, and the Tick60 events. -/

namespace Sys2Proof.Machine

/-! ### The error an instruction raises (R182) -/

/-- The error an instruction raises, or none; it reads the V registers, I and sp alone. -/
def instrFault : Instr → State → Option Fault
  | .ret, s => if s.sp.val = 0 then some .stackUnderflow else none
  | .call _, s => if s.sp.val = 16 then some .stackOverflow else none
  | .drw x y n, s => (rangeFault s.i.toNat n.val).or (footprintFault (readV s x) (readV s y) n.val)
  | .skp x, s | .sknp x, s => keyFault (readV s x)
  | .ldB _, s => rangeFault s.i.toNat 3
  | .stRegs x, s | .ldRegs x, s => rangeFault s.i.toNat (x.val + 1)
  | _, _ => none

/-- An instruction raises `instrFault`, and completes where that is none. -/
theorem exec_cases (i : Instr) (s : State) :
    (∃ f, instrFault i s = some f ∧ exec i s = raiseFault f s) ∨
    (instrFault i s = none ∧ ∃ t, exec i s = complete t) := by
  cases i
  case ret =>
    by_cases h : s.sp.val = 0
    · exact .inl ⟨_, if_pos h, execRet_empty s h⟩
    · exact .inr ⟨if_neg h, _, execRet_of_pos s (Nat.pos_of_ne_zero h)⟩
  case call nnn =>
    by_cases h : s.sp.val = 16
    · exact .inl ⟨_, if_pos h, execCall_full nnn s h⟩
    · exact .inr ⟨if_neg h, _, execCall_of_lt nnn s (by omega)⟩
  case drw x y n =>
    rcases execDrw_cases x y n s with ⟨f, hr, h⟩ | ⟨hr, f, hf, h⟩ | ⟨hr, hf, h⟩
    · exact .inl ⟨f, by rw [instrFault, hr]; rfl, h⟩
    · exact .inl ⟨f, by rw [instrFault, hr, hf]; rfl, h⟩
    · exact .inr ⟨by rw [instrFault, hr, hf]; rfl, _, h⟩
  case ldB x =>
    rcases storeAtI_cases (decimalDigits (readV s x)) s with ⟨f, hr, h⟩ | ⟨hr, h⟩
    · exact .inl ⟨f, hr, h⟩
    · exact .inr ⟨hr, _, h⟩
  case stRegs x =>
    rcases storeAtI_cases (regBytes s.v x) s with ⟨f, hr, h⟩ | ⟨hr, h⟩ <;> rw [length_regBytes] at hr
    · exact .inl ⟨f, hr, h⟩
    · exact .inr ⟨hr, _, h⟩
  case ldRegs x =>
    cases h : rangeFault s.i.toNat (x.val + 1) with
    | some f => exact .inl ⟨f, h, execLdRegs_raises x s h⟩
    | none => exact .inr ⟨h, _, execLdRegs_ok x s h⟩
  case skp x =>
    cases h : keyFault (readV s x) with
    | some f => exact .inl ⟨f, h, execSkp_raises x s h⟩
    | none => exact .inr ⟨h, _, execSkp_ok x s h⟩
  case sknp x =>
    cases h : keyFault (readV s x) with
    | some f => exact .inl ⟨f, h, execSknp_raises x s h⟩
    | none => exact .inr ⟨h, _, execSknp_ok x s h⟩
  all_goals exact .inr ⟨rfl, _, rfl⟩

theorem instrFault_congr {s t : State} (hv : t.v = s.v) (hi : t.i = s.i) (hsp : t.sp = s.sp) (i : Instr) :
    instrFault i t = instrFault i s := by
  cases i <;> simp only [instrFault, readV_def, hv, hi, hsp]

theorem instrFault_beginStep (i : Instr) (s : State) : instrFault i (beginStep s) = instrFault i s :=
  instrFault_congr (beginStep_v s) (beginStep_i s) (beginStep_sp s) i

/-- Settles O43: a result other than OK is the kind of the instruction's error. -/
theorem onlyListedInstructionsRaise : Obligations.OnlyListedInstructionsRaise := by
  intro i s t h hres
  rcases exec_cases i s with ⟨f, hf, he⟩ | ⟨-, u, hu⟩
  case inr => rw [hu] at h; cases h; exact absurd rfl hres
  rw [he] at h; cases h
  dsimp only
  cases i
  case ret =>
    obtain ⟨-, rfl⟩ : _ ∧ Fault.stackUnderflow = f := by simpa [instrFault] using hf
    exact .inl ⟨rfl, rfl⟩
  case call nnn =>
    obtain ⟨-, rfl⟩ : _ ∧ Fault.stackOverflow = f := by simpa [instrFault] using hf
    exact .inr (.inl ⟨rfl, nnn, rfl⟩)
  case drw =>
    rcases Option.or_eq_some_iff.1 hf with hr | ⟨-, hr⟩
    · simp [rangeFault_kind hr]
    · simp [footprintFault_kind hr]
  case skp | sknp => simp [keyFault_kind hf]
  case ldB | stRegs | ldRegs => simp [rangeFault_kind hf]
  all_goals cases hf

/-! ### The error a Step raises (40_cycle.md R96) -/

/-- The error a Step raises that is not blocked, or none: the fetch's, else that of the instruction it decodes. -/
def stepFault (s : State) : Option Fault :=
  match fetch s with
  | .error f => some f
  | .ok op => (decodeWord op).bind (instrFault · s)

/-- A Step that is not blocked raises `stepFault`, and ends in no fatal kind where that is none. -/
theorem step_raises_stepFault {s t : State} (hl : s.loadError = false) (h : step s = .next t) :
    (∃ f, stepFault s = some f ∧ StepRaised f s t) ∨ (stepFault s = none ∧ t.result.fatal = false) := by
  rcases step_cases s with ⟨hl', -⟩ | ⟨-, f, hf, hs⟩ | ⟨-, op, hf, hd, hs⟩ | ⟨-, op, i, u, hf, hd, he, hs⟩
  case inl => rw [hl] at hl'; cases hl'
  all_goals rw [hs] at h; cases h; simp only [stepFault, hf]
  case inr.inl => exact .inl ⟨f, rfl, stepRaised_consumeInput hl f⟩
  case inr.inr.inl => exact .inr ⟨by rw [hd]; rfl, rfl⟩
  case inr.inr.inr =>
    rw [hd, Option.bind_some, ← instrFault_beginStep]
    rcases exec_cases i (beginStep s) with ⟨f, hf, hu⟩ | ⟨hf, w, hu⟩ <;> rw [hu] at he <;> cases he
    · exact .inl ⟨f, hf, stepRaised_consumeInput hl f⟩
    · exact .inr ⟨hf, rfl⟩

theorem stepFault_congr {s t : State} (hv : t.v = s.v) (hi : t.i = s.i) (hsp : t.sp = s.sp) (hpc : t.pc = s.pc)
    (hm : t.mem = s.mem) : stepFault t = stepFault s := by
  simp only [stepFault, fetch_congr hpc hm, instrFault_congr hv hi hsp]

/-- A blocked Step reports LoadError and spends its inputs (R177). -/
theorem step_of_loadError {s : State} (hl : s.loadError = true) :
    step s = .next { s with result := .loadError, info := 0#16, inputs := s.inputs.tail, stepNo := s.stepNo + 1 } := by
  rw [step, runStep, if_pos hl]
  rfl

/-! ### A fatal report repeats until Reset (R181) -/

/-- The outputs of `s` are what the next Step reports, a fatal kind: load_error is 1, or the Step raises the same error again. -/
def Stuck (s : State) : Prop :=
  (s.loadError = true ∧ s.result = .loadError ∧ s.info = 0#16) ∨
  (s.loadError = false ∧ s.displayChanged = false ∧
    ∃ f, stepFault s = some f ∧ s.result = f.kind ∧ s.info = f.info)

/-- `u` is `s` with DT fallen or kept and some Steps more counted. -/
def OnlyTimeFrom (s u : State) : Prop :=
  u = { s with dt := u.dt, stepNo := u.stepNo } ∧ u.dt.toNat ≤ s.dt.toNat

theorem OnlyTimeFrom.trans {s t u : State} (h : OnlyTimeFrom s t) (h' : OnlyTimeFrom t u) : OnlyTimeFrom s u := by
  obtain ⟨ht, hdt⟩ := h
  obtain ⟨hu, hdt'⟩ := h'
  refine ⟨?_, hdt'.trans hdt⟩
  rw [hu, ht]

/-- DT and the model's inputs play no part in being stuck. -/
theorem Stuck.setTime {s : State} (h : Stuck s) (dt : Byte) (inputs : List StepInput) (stepNo : Nat) :
    Stuck { s with dt := dt, inputs := inputs, stepNo := stepNo } := by
  rcases h with h | ⟨hl, hd, f, hf, hr⟩
  · exact .inl h
  · refine .inr ⟨hl, hd, f, ?_, hr⟩
    rw [← hf]
    exact stepFault_congr rfl rfl rfl rfl rfl

theorem Stuck.onlyTimeFrom {s u : State} (h : Stuck s) (hu : OnlyTimeFrom s u) : Stuck u := by
  obtain ⟨hu, -⟩ := hu
  rw [hu]
  exact h.setTime ..

/-- A Step that reports a fatal kind leaves a stuck state: what it raised, the next Step raises. -/
theorem stuck_of_fatal {s t : State} (h : step s = .next t) (hfatal : t.result.fatal = true) : Stuck t := by
  cases hl : s.loadError with
  | true =>
    rw [step_of_loadError hl] at h; cases h
    exact .inl ⟨hl, rfl, rfl⟩
  | false =>
    rcases step_raises_stepFault hl h with ⟨f, hf, ht⟩ | ⟨-, hnot⟩
    · unfold StepRaised at ht
      subst ht
      refine .inr ⟨hl, rfl, f, ?_, rfl, rfl⟩
      rw [← hf]
      exact stepFault_congr rfl rfl rfl rfl rfl
    · rw [hnot] at hfatal; cases hfatal

/-- A Step from a stuck state spends its inputs and its ticks and changes nothing else. -/
theorem Stuck.step_eq {s u : State} (h : Stuck s) (hs : step s = .next u) :
    u = { s with dt := u.dt, inputs := s.inputs.tail, stepNo := u.stepNo } ∧ u.dt.toNat ≤ s.dt.toNat := by
  rcases h with ⟨hl, hr, hi⟩ | ⟨hl, hd, f, hf, hr, hi⟩
  · rw [step_of_loadError hl] at hs; cases hs
    simp [← hr, ← hi]
  · rcases step_raises_stepFault hl hs with ⟨g, hg, hu⟩ | ⟨hnone, -⟩
    · rw [hf] at hg; cases hg
      unfold StepRaised at hu
      subst hu
      exact ⟨by simp [hd, hr, hi], by rw [countDown_toNat]; omega⟩
    · rw [hf] at hnone; cases hnone

/-- Any other event than Reset leaves a stuck state as it is, but for DT and the Step counter. -/
theorem Stuck.runEvent_onlyTimeFrom {s u : State} {e : Event} (h : Stuck s) (he : ∀ rom, e ≠ .reset rom)
    (hu : runEvent e s = .next u) : OnlyTimeFrom s u := by
  cases e with
  | reset rom => exact absurd rfl (he rom)
  | step keyHeld rnd pick => exact (h.setTime s.dt _ s.stepNo).step_eq hu
  | tick60 =>
    rw [runEvent, tick60_eq_tickMany] at hu; cases hu
    refine ⟨rfl, ?_⟩
    rw [tickMany_dt]
    split
    · exact le_rfl
    · rw [countDown_toNat]; omega

/-- The same for a list of events. -/
theorem Stuck.runEvents_onlyTimeFrom {s : State} {es : List Event} (h : Stuck s) (hes : ∀ rom, Event.reset rom ∉ es) :
    ∃ u, runEvents es s = .next u ∧ OnlyTimeFrom s u := by
  induction es generalizing s with
  | nil => exact ⟨s, rfl, rfl, le_rfl⟩
  | cons e rest ih =>
    obtain ⟨t, ht⟩ := runEvent_next e s
    have hst : OnlyTimeFrom s t := h.runEvent_onlyTimeFrom (fun rom he => hes rom (he ▸ List.mem_cons_self)) ht
    obtain ⟨u, hu, htu⟩ := ih (h.onlyTimeFrom hst) fun rom hm => hes rom (List.mem_cons_of_mem e hm)
    refine ⟨u, ?_, hst.trans htu⟩
    rw [runEvents, ht]
    exact hu

/-- Settles O42: a fatal Step leaves a stuck state, and every event that is no Reset keeps it so. -/
theorem fatalReportRepeatsUntilReset : Obligations.FatalReportRepeatsUntilReset := by
  intro s t h hfatal es hes
  exact (stuck_of_fatal h hfatal).runEvents_onlyTimeFrom hes

/-! ### Ticks (R184, R193) -/

theorem tickMany_tick60 (n : Nat) (s : State) : tickMany n (tick60 s) = tickMany (n + 1) s := by
  rw [tick60_eq_tickMany]
  cases hl : s.loadError with
  | true => simp [tickMany, hl]
  | false =>
    have : countDown n (countDown 1 s.dt) = countDown (n + 1) s.dt := by
      apply BitVec.eq_of_toNat_eq
      simp only [countDown_toNat]; omega
    simp [tickMany, hl, this]

/-- Settles O33: the first tick of n + 1, then the n others. -/
theorem ticksBeforeStepAreTickEvents : Obligations.TicksBeforeStepAreTickEvents := by
  intro n
  induction n with
  | zero => intro s; simp [tickMany, countDown_zero]
  | succ n ih =>
    intro s
    rw [← tickMany_tick60, ih]
    rfl

/-- Settles O32: a Tick60 is one count down of DT, which load_error blocks. -/
theorem tickDecrementsOnlyDelayTimer : Obligations.TickDecrementsOnlyDelayTimer := by
  intro s
  refine ⟨fun hl _ => tick60_dt_toNat hl, fun h => if_neg ?_, by rw [tick60_eq_tickMany]; rfl⟩
  rintro ⟨hl, hdt⟩
  rcases h with h | h
  · rw [hl] at h; cases h
  · exact hdt (BitVec.eq_of_toNat_eq h)

/-- Settles O48: the ticks are taken in before the instruction, and FX15 alone writes DT. -/
theorem delayTimerFallsByTicksUnlessWritten : Obligations.DelayTimerFallsByTicksUnlessWritten := by
  intro s t h hl hno
  have hbegin : (beginStep s).dt.toNat = s.dt.toNat - (stepInput s).ticks := by
    rw [beginStep_eq hl, countDown_toNat]
  rcases step_cases s with ⟨hl', -⟩ | ⟨-, f, -, hs⟩ | ⟨-, op, -, -, hs⟩ | ⟨-, op, i, u, hf, hd, he, hs⟩
  case inl => rw [hl] at hl'; cases hl'
  all_goals rw [hs] at h; cases h; rw [← hbegin]
  case inr.inl => rfl
  case inr.inr.inl => rfl
  case inr.inr.inr =>
    obtain ⟨-, -, -, -, hdt, -⟩ := onlyListedInstructionsWriteEachElement i (beginStep s) u he
    have hkeep : u.dt = (beginStep s).dt := by
      by_contra hne
      obtain ⟨x, rfl⟩ := hdt hne
      exact hno x ((fetches_iff s _).2 ⟨hl, op, hf, hd⟩)
    rw [consumeInput_dt, hkeep]

/-! ### The load error (R177) and the table of kinds (R170) -/

/-- Settles O38: load_error is tested before anything is done. -/
theorem loadErrorBlocksTheMachine : Obligations.LoadErrorBlocksTheMachine := by
  intro s hl
  obtain ⟨-, hkeep, -⟩ := tickDecrementsOnlyDelayTimer s
  exact ⟨step_of_loadError hl, hkeep (.inl hl)⟩

/-- Settles O44: the kinds are listed in the order of the table. -/
theorem resultCodesAreTheTable : Obligations.ResultCodesAreTheTable := rfl

end Sys2Proof.Machine

/-! PROOFS. Reset and hazards (70_reset_and_hazards.md): every element after Reset, and the two invariants of pc, stack and
memory. -/

namespace Sys2Proof.Machine

/-! ### Reset (R200) -/

/-- An image that fits is loaded (20_memory.md R60). -/
theorem resetRom_of_le {rom : List Byte} (h : rom.length ≤ Config.romMax) :
    resetRom rom = { State.reset with mem := cellsFrom Config.romBase rom } := if_neg (Nat.not_lt.2 h)

/-- Of an image that is too long nothing is loaded. -/
theorem resetRom_of_gt {rom : List Byte} (h : rom.length > Config.romMax) :
    resetRom rom = { State.reset with loadError := true } := if_pos h

/-- What Reset leaves is the reset state but for memory and load_error, whatever the image. -/
theorem resetRom_eq (rom : List Byte) :
    resetRom rom = { State.reset with loadError := (resetRom rom).loadError, mem := (resetRom rom).mem } := by
  unfold resetRom
  split <;> rfl

/-- Settles O50: load_error and memory by the length of the image, every other element as in the reset state. -/
theorem resetGivesEveryElementItsValue : Obligations.ResetGivesEveryElementItsValue := by
  intro rom s
  refine ⟨_, rfl, fun h => ?_, fun h => ?_, ?_⟩
  · rw [resetRom_of_le h]
    exact ⟨rfl, memByte_cellsFrom Config.romBase rom⟩
  · rw [resetRom_of_gt h]
    exact ⟨rfl, fun _ => rfl⟩
  · rw [resetRom_eq]
    exact ⟨rfl, rfl, fun j => Vector.getElem_replicate j.isLt, fun r => Vector.getElem_replicate r.isLt, rfl, rfl,
      fun r _ c _ => fbPixel_blank r c, rfl, rfl, rfl⟩

/-! ### The bounds (R212) -/

theorem inBounds_reset : InBounds State.reset := by
  refine ⟨reset_mem_wf, by decide, fun j => ?_⟩
  simp [State.reset]

/-- Settles O52: an image is loaded in canonical form, and no other element that is bounded depends on it. -/
theorem boundsHoldAfterReset : Obligations.BoundsHoldAfterReset := by
  refine ⟨inBounds_reset, fun rom => ?_⟩
  obtain ⟨-, hpc, hstack⟩ := inBounds_reset
  rw [resetRom_eq]
  exact ⟨resetRom_mem_wf rom, hpc, hstack⟩

/-! ### How a Step moves pc and the stack -/

/-- A word can be fetched at 0x0FFE at the highest. -/
theorem pc_le_of_fetch {s : State} {op : Word} (h : fetch s = .ok op) : s.pc.toNat ≤ 4094 :=
  Nat.le_of_lt_succ (Nat.lt_of_succ_lt_succ (pc_lt_of_fetch h))

theorem Fetches.pc_le {s : State} {i : Instr} (h : Fetches s i) : s.pc.toNat ≤ 4094 := by
  obtain ⟨-, op, hf, -⟩ := (fetches_iff s i).1 h
  exact pc_le_of_fetch hf

/-- A Step keeps memory in canonical form; it leaves the stack and holds pc or passes over an Unknown word, or it moves both as
the instruction it fetches does. -/
theorem step_moves {s t : State} (hm : Memory.wf s.mem) (h : step s = .next t) :
    Memory.wf t.mem ∧
    ((t.sp = s.sp ∧ t.stack = s.stack ∧ (t.pc = s.pc ∨ s.pc.toNat ≤ 4094 ∧ t.pc = s.pc + 2#16)) ∨
      ∃ i, Fetches s i ∧ Moves i s t) := by
  rcases step_cases s with ⟨-, hs⟩ | ⟨-, f, -, hs⟩ | ⟨-, op, hf, -, hs⟩ | ⟨hl, op, i, u, hf, hd, he, hs⟩ <;>
    rw [hs] at h <;> cases h
  case inl => exact ⟨hm, .inl ⟨rfl, rfl, .inl rfl⟩⟩
  case inr.inl => exact ⟨hm, .inl ⟨rfl, rfl, .inl rfl⟩⟩
  case inr.inr.inl => exact ⟨hm, .inl ⟨rfl, rfl, .inr ⟨pc_le_of_fetch hf, rfl⟩⟩⟩
  case inr.inr.inr =>
    obtain ⟨hmu, hmoves⟩ := exec_moves (s := beginStep s) hm he
    exact ⟨hmu, .inr ⟨i, (fetches_iff s i).2 ⟨hl, op, hf, hd⟩, hmoves⟩⟩

/-- A push writes the slot at sp alone. -/
theorem getElem_stack_set {stack : Vector Word 16} {sp : Nat} (h : sp < 16) (w : Word) (j : Fin 16) :
    (stack.set sp w)[j.val] = if j.val = sp then w else stack[j.val] := by
  rw [Vector.getElem_set]
  simp only [eq_comm]

/-! ### The bounds are kept (R212) -/

/-- An instruction fetched within the bounds leaves pc and the stack within them. -/
theorem Moves.inBounds {i : Instr} {s t : State} (h : Moves i s t) (hpc : s.pc.toNat ≤ 4094)
    (hslots : ∀ j : Fin 16, s.stack[j.val].toNat ≤ 0x0FFE) :
    t.pc.toNat ≤ 0x10FE ∧ ∀ j : Fin 16, t.stack[j.val].toNat ≤ 0x0FFE := by
  rcases h with ⟨-, hstack, hmove⟩ | ⟨hsp, n, -, hcall, hstack, -⟩ | ⟨hsp, -, hstack, -, hret⟩
  case inl =>
    simp only [hstack]
    refine ⟨?_, hslots⟩
    rcases hmove with h | h | h | ⟨n, -, h⟩ | ⟨n, -, h⟩ <;> rw [h]
    · omega
    · rw [toNat_add_two hpc]; omega
    · rw [toNat_add_four hpc]; omega
    · rw [immWord_toNat]; omega
    · rw [byteWord_add_immWord_toNat]; omega
  case inr.inl =>
    simp only [hstack, hcall, getElem_stack_set hsp]
    refine ⟨by rw [immWord_toNat]; omega, fun j => ?_⟩
    split
    · exact hpc
    · exact hslots j
  case inr.inr =>
    simp only [hstack, hret]
    have hslot := hslots ⟨s.sp.val - 1, by omega⟩
    exact ⟨by rw [toNat_add_two hslot]; omega, hslots⟩

/-- Settles O51: a fetch bounds pc before the instruction moves it. -/
theorem stepKeepsBounds : Obligations.StepKeepsBounds := by
  intro s t ⟨hm, hpc, hslots⟩ h
  obtain ⟨hmt, ⟨-, hstack, hmove⟩ | ⟨i, hf, hmoves⟩⟩ := step_moves hm h
  · refine ⟨hmt, ?_, by simpa only [hstack] using hslots⟩
    rcases hmove with h | ⟨hle, h⟩ <;> rw [h]
    · exact hpc
    · rw [toNat_add_two hle]; omega
  · exact ⟨hmt, hmoves.inBounds hf.pc_le hslots⟩

/-! ### Even addresses at or above 0x200 (R211) -/

theorem GoodTarget.add_two {w : Word} (h : GoodTarget w.toNat) (hw : w.toNat ≤ 4094) :
    GoodTarget (w + 2#16).toNat := by
  unfold GoodTarget at *
  rw [toNat_add_two hw]; omega

theorem GoodTarget.add_four {w : Word} (h : GoodTarget w.toNat) (hw : w.toNat ≤ 4094) :
    GoodTarget (w + 4#16).toNat := by
  unfold GoodTarget at *
  rw [toNat_add_four hw]; omega

/-- An instruction with a good target, fetched at a good address, leaves pc and the slots in use good. -/
theorem Moves.evenAndHigh {i : Instr} {s t : State} (h : Moves i s t) (hpc : s.pc.toNat ≤ 4094)
    (hslots : ∀ j : Fin 16, s.stack[j.val].toNat ≤ 0x0FFE) (hgood : EvenAndHigh s) (htarget : TargetIsGood s i) :
    EvenAndHigh t := by
  obtain ⟨hgpc, hgslots⟩ := hgood
  obtain ⟨hjp, hcall, hjpV0⟩ := htarget
  unfold EvenAndHigh
  rcases h with ⟨hsp, hstack, hmove⟩ | ⟨hlt, n, hi, hpct, hstack, hsp⟩ | ⟨hpos, -, hstack, hsp, hpct⟩
  case inl =>
    simp only [hstack, hsp]
    refine ⟨?_, hgslots⟩
    rcases hmove with h | h | h | ⟨n, hi, h⟩ | ⟨n, hi, h⟩ <;> rw [h]
    · exact hgpc
    · exact hgpc.add_two hpc
    · exact hgpc.add_four hpc
    · rw [immWord_toNat]; exact hjp n hi
    · rw [byteWord_add_immWord_toNat]; exact hjpV0 n hi
  case inr.inl =>
    simp only [hstack, hpct, hsp, getElem_stack_set hlt]
    refine ⟨by rw [immWord_toNat]; exact hcall n hi, fun j hj => ?_⟩
    split
    · exact hgpc
    · exact hgslots j (by omega)
  case inr.inr =>
    simp only [hstack, hpct, hsp]
    have htop := hgslots ⟨s.sp.val - 1, by omega⟩ (Nat.sub_one_lt_of_lt hpos)
    exact ⟨htop.add_two (hslots ⟨s.sp.val - 1, by omega⟩), fun j hj => hgslots j (by omega)⟩

/-- Settles O53: what RET returns to was a good pc when CALL pushed it. -/
theorem goodTargetsKeepPcEvenAndHigh : Obligations.GoodTargetsKeepPcEvenAndHigh := by
  intro s t ⟨hm, _, hslots⟩ hgood htarget h
  obtain ⟨-, ⟨hsp, hstack, hmove⟩ | ⟨i, hf, hmoves⟩⟩ := step_moves hm h
  · obtain ⟨hgpc, hgslots⟩ := hgood
    refine ⟨?_, by simpa only [hstack, hsp] using hgslots⟩
    rcases hmove with h | ⟨hle, h⟩ <;> rw [h]
    · exact hgpc
    · exact hgpc.add_two hle
  · exact hmoves.evenAndHigh hf.pc_le hslots hgood (htarget i hf)

end Sys2Proof.Machine
